-- ==== Sys2Proof/Word.lean ====
section
/-!
DEFINITION. The bit vectors and the two compound value types of the block: byte, sub-word, 16-byte buffer,
wire value (spec 10_state.md R14). The integer value type is Lean's `Int`.
-/

namespace Sys2Proof

/-- A byte, bit 7 its most significant bit (00_scope.md section 4). -/
abbrev Byte := BitVec 8

/-- An unsigned 32-bit sub-word; a 64-bit word is two of them (R4 SUBW, R35). -/
abbrev SubWord := BitVec 32

/-- The buffer `B`: always exactly 16 bytes, index 0 the most significant (R14, R18, R19). -/
abbrev Buffer := Vector Byte 16

/-- The pattern of a 128-bit buffer port, `BI` or `BO` (R13, R34). -/
abbrev BufferPort := BitVec 128

/-- The wire value as the block hands it over: two little-endian word-pairs, in each pair the less significant
sub-word W0 first (R22, R35). Every four sub-words are a wire value (R14). -/
structure WireValue where
  /-- `HI_W0`, the less significant sub-word of `hi`. -/
  hiW0 : SubWord
  /-- `HI_W1`, the more significant sub-word of `hi`. -/
  hiW1 : SubWord
  /-- `LO_W0`, the less significant sub-word of `lo`. -/
  loW0 : SubWord
  /-- `LO_W1`, the more significant sub-word of `lo`. -/
  loW1 : SubWord
deriving DecidableEq, Repr

end Sys2Proof
end

