-- ==== Sys2Proof/Config.lean ====
section
/-!
DEFINITION. What the spec fixes once for the block (00_scope.md R4), what it leaves to the implementation and how
this model settles it (R5), and the one free value of the model.
-/

namespace Sys2Proof.Config

/-- VALW: width in bits of the value the wire format carries (R4). -/
def valw : Nat := 128

/-- VMIN (R4). -/
def vmin : Int := -2 ^ 127

/-- VMAX (R4). -/
def vmax : Int := 2 ^ 127 - 1

/-- BUFLEN: bytes in the buffer (R4). -/
def buflen : Nat := 16

/-- WORDW: width of `hi` and of `lo` (R4). -/
def wordw : Nat := 64

/-- SUBW: width of a sub-word (R4). -/
def subw : Nat := 32

/-- QLEN: bytes in a quarter of the buffer (R4). -/
def qlen : Nat := 4

/-- OPW: width of the operation select (R5, decision D5). -/
def opw : Nat := 3

/-- The least width the integer ports `X` and `Y` may have (R5: XW >= 129). The machine itself takes XW unbounded,
as R5 and R33 allow (log entry 1); the finite ports are in Machine/Operands.lean. -/
def xwMin : Nat := 129

/-- MASK_CHECKS_RANGE: the mask path raises Overflow outside [VMIN, VMAX] (R5, R48, decision D8). -/
def maskChecksRange : Bool := true

/-- SCALE, a constant of the surrounding system and not of the block: no definition of the machine reads it
(R5, R77, decision D18). -/
def scale : Int := 10000000

/-- What the working buffer of a call holds before the call writes it. The spec says only that each call allocates
its own working buffer (R67, R78) and not what a fresh one holds, so this is a FREE VALUE (log entry 6): nothing
constrains it, and its argument lets every call have another one. Every byte is written before it is read. -/
opaque workingBuffer : Nat → Buffer

end Sys2Proof.Config
end

