-- ==== Sys2Proof/Machine/Arith.lean ====
section
/-!
DEFINITION. The arithmetic vocabulary of 00_scope.md section 4 and 45_properties.md R110: field extraction, the two
extensions, the arithmetic shift, and big-endian runs of bytes.
-/

namespace Sys2Proof.Machine

/-- `zext_N(v) = v mod 2^N`: the N-bit pattern of `v` as an unsigned integer (00_scope.md section 4). -/
def zext (n : Nat) (v : Int) : Nat := (v % 2 ^ n).toNat

/-- `signed_N(u)`: an N-bit pattern read as a signed integer (00_scope.md section 4, R7). -/
def signed (n u : Nat) : Int := if u < 2 ^ (n - 1) then (u : Int) else (u : Int) - 2 ^ n

/-- `sext_N(v) = signed_N(zext_N(v))`: the source's `sign_extend` (00_scope.md section 4). -/
def sext (n : Nat) (v : Int) : Int := signed n (zext n v)

/-- `asr(v, n) = floor(v / 2^n)`: arithmetic shift right. `/` on `Int` with a positive divisor rounds toward minus
infinity (R110). -/
def asr (v : Int) (n : Nat) : Int := v / 2 ^ n

/-- `u[hi:lo]`, both ends inclusive (00_scope.md section 4). -/
def bits (u hi lo : Nat) : Nat := u / 2 ^ lo % 2 ^ (hi - lo + 1)

/-- `be(b_0, ..., b_(n-1))`: the big-endian value of a run of bytes, first byte most significant, 0 for the empty run
(00_scope.md section 4). -/
def be : List Byte → Nat
  | [] => 0
  | b :: bs => b.toNat * 256 ^ bs.length + be bs

/-- Byte `i` of the big-endian run of `n` bytes that spells `u`: `u[8(n-1-i)+7 : 8(n-1-i)]`. -/
def byteOf (n u i : Nat) : Byte := BitVec.ofNat 8 (bits u (8 * (n - 1 - i) + 7) (8 * (n - 1 - i)))

/-- `bytes_be_n(u)`: the run of `n` bytes whose big-endian value is `u`, for `u < 256^n` (00_scope.md section 4). -/
def bytesBe (n u : Nat) : List Byte := (List.range n).map (byteOf n u)

/-- How many bytes the minimal big-endian sequence of a magnitude has: at least one (R41: the magnitude 0 is the
single byte `00`). -/
def minimalLength (m : Nat) : Nat := Nat.log2 m / 8 + 1

/-- The minimal big-endian byte sequence of a magnitude (R41). -/
def minimalBytes (m : Nat) : List Byte := bytesBe (minimalLength m) m

end Sys2Proof.Machine
end

