-- ==== Sys2Proof/Syntax.lean ====
section
/-!
DEFINITION. The operations, the request and the response: spec 30_encoding.md (R30, R31, R36, R38) and 10_state.md
R13, and the rows of spec/opcode_table.json.
-/

namespace Sys2Proof

/-- The seven operations, one constructor per row of spec/opcode_table.json (R30). No operand is encoded inside the
operation word, so no constructor has an argument: operands arrive on the ports of the request. -/
inductive Instr where
  /-- `I2B`: integer to 16-byte buffer, or Overflow (R40). -/
  | i2b
  /-- `B2W`: buffer to wire value (R44). -/
  | b2w
  /-- `I2W`: integer to wire value by the buffer path, or Overflow (R45). -/
  | i2w
  /-- `I2WM`: integer to wire value by the mask path, or Overflow (R48). -/
  | i2wm
  /-- `W2I`: wire value to integer (R50). -/
  | w2i
  /-- `W2B`: wire value to buffer (R51). -/
  | w2b
  /-- `B2I`: buffer to integer (R52). -/
  | b2i
deriving DecidableEq, Repr

/-- The input ports of the block (R13). -/
inductive InPort where
  | op | x | bi | wiHiW0 | wiHiW1 | wiLoW0 | wiLoW1
deriving DecidableEq, Repr

/-- The output ports of the block (R13). -/
inductive OutPort where
  | st | y | bo | woHiW0 | woHiW1 | woLoW0 | woLoW1
deriving DecidableEq, Repr

/-- The operand formats of R31: I an integer operand, B a buffer operand, W a wire-value operand. -/
inductive Format where
  | I | B | W
deriving DecidableEq, Repr

/-- The format name of an operation (R31). -/
def Instr.format : Instr → Format
  | .i2b => .I
  | .b2w => .B
  | .i2w => .I
  | .i2wm => .I
  | .w2i => .W
  | .w2b => .W
  | .b2i => .B

/-- The operand ports an operation reads (R31, column "reads"). `OP` is read by every transaction (R13). -/
def Instr.reads : Instr → List InPort
  | .i2b => [.x]
  | .b2w => [.bi]
  | .i2w => [.x]
  | .i2wm => [.x]
  | .w2i => [.wiHiW0, .wiHiW1, .wiLoW0, .wiLoW1]
  | .w2b => [.wiHiW0, .wiHiW1, .wiLoW0, .wiLoW1]
  | .b2i => [.bi]

/-- The data ports an operation's `Ok` response drives (R31, column "drives on Ok"). `ST` is driven by every
response. -/
def Instr.drives : Instr → List OutPort
  | .i2b => [.bo]
  | .b2w => [.woHiW0, .woHiW1, .woLoW0, .woLoW1]
  | .i2w => [.woHiW0, .woHiW1, .woLoW0, .woLoW1]
  | .i2wm => [.woHiW0, .woHiW1, .woLoW0, .woLoW1]
  | .w2i => [.y]
  | .w2b => [.bo]
  | .b2i => [.y]

/-- Whether an operation can answer Overflow (R31, last column; R61). -/
def Instr.canOverflow : Instr → Bool
  | .i2b => true
  | .b2w => false
  | .i2w => true
  | .i2wm => true
  | .w2i => false
  | .w2b => false
  | .b2i => false

/-- The mnemonic of an operation, as spec/opcode_table.json and R38 write it. -/
def Instr.mnemonic : Instr → String
  | .i2b => "I2B"
  | .b2w => "B2W"
  | .i2w => "I2W"
  | .i2wm => "I2WM"
  | .w2i => "W2I"
  | .w2b => "W2B"
  | .b2i => "B2I"

/-- A request: the pattern on every input port of one transaction (R13). The integer port is carried as the
mathematical integer it presents, XW unbounded (R5, R33). A port an operation does not read may carry anything
(R37). -/
structure Request where
  /-- `OP`, the operation select, 3 bits. -/
  op : BitVec 3
  /-- `X`, the integer operand `v`. -/
  x : Int
  /-- `BI`, the buffer operand; `BI[127:120]` is `B[0]`. -/
  bi : BufferPort
  /-- `WI_HI_W0`, `WI_HI_W1`, `WI_LO_W0`, `WI_LO_W1`, the wire-value operand. -/
  wi : WireValue
deriving DecidableEq, Repr

/-- A response: `Ok` with exactly the data ports its operation drives, or `Overflow` with none (R13, R62). The type
cannot hold a value for a port that is not driven. -/
inductive Response where
  /-- `ST = 0` and `BO`: the `Ok` response of I2B and W2B. -/
  | okBuffer (bo : BufferPort)
  /-- `ST = 0` and the four `WO_*` ports: the `Ok` response of B2W, I2W and I2WM. -/
  | okWire (wo : WireValue)
  /-- `ST = 0` and `Y`, carried as the integer it presents: the `Ok` response of W2I and B2I. -/
  | okInteger (y : Int)
  /-- `ST = 1` and no data port: the Overflow response (R62). -/
  | overflow
deriving DecidableEq, Repr

/-- The data ports a response drives (R13). -/
def Response.drives : Response → List OutPort
  | .okBuffer _ => [.bo]
  | .okWire _ => [.woHiW0, .woHiW1, .woLoW0, .woLoW1]
  | .okInteger _ => [.y]
  | .overflow => []

/-- The port `Y` of a response, if it has a value (R13). -/
def Response.y : Response → Option Int
  | .okInteger y => some y
  | _ => none

/-- The port `BO` of a response, if it has a value (R13). -/
def Response.bo : Response → Option BufferPort
  | .okBuffer bo => some bo
  | _ => none

/-- The four ports `WO_*` of a response, if they have a value (R13). -/
def Response.wo : Response → Option WireValue
  | .okWire wo => some wo
  | _ => none

end Sys2Proof
end

