-- ==== Sys2Proof/WellFormed.lean ====
section
/-!
DEFINITION. What may be presented to the block (70_reset_and_hazards.md R82) and which width an integer port may
have (00_scope.md R5), as decidable checks.
-/

namespace Sys2Proof

/-- An instruction carries no operand (R30), so every term of `Instr` is well formed. -/
def Instr.wf : Instr → Bool
  | .i2b => true
  | .b2w => true
  | .i2w => true
  | .i2wm => true
  | .w2i => true
  | .w2b => true
  | .b2i => true

/-- An operation code is well formed when it is not the reserved code (R36). -/
def opWf (op : BitVec 3) : Bool := op != 0#3

/-- The host must not present `OP = 000`; every other request is legal, whatever its operand patterns (R82). -/
def Request.wf (r : Request) : Bool := opWf r.op

/-- A width the integer ports may have (R5: XW >= 129). -/
def widthWf (xw : Nat) : Bool := decide (Config.xwMin ≤ xw)

end Sys2Proof
end

