-- ==== Sys2Proof/Decode.lean ====
section
/-!
DEFINITION. Decoding and encoding of the operation select `OP` (30_encoding.md R30, R36, R39). The whole instruction
word is the 3-bit `OP`.
-/

namespace Sys2Proof

/-- Why a code is not an operation. -/
inductive DecodeError where
  /-- `OP = 000`: the decoder answers "invalid" (R36). -/
  | reservedOp
deriving DecidableEq, Repr

/-- The operation a code selects (R30), total over the eight codes; the reserved code is rejected by name (R36). -/
def decode : BitVec 3 → Except DecodeError Instr
  | 0b000#3 => .error .reservedOp
  | 0b001#3 => .ok .i2b
  | 0b010#3 => .ok .b2w
  | 0b011#3 => .ok .i2w
  | 0b100#3 => .ok .i2wm
  | 0b101#3 => .ok .w2i
  | 0b110#3 => .ok .w2b
  | 0b111#3 => .ok .b2i

/-- The code of an operation, from the same table (R30). -/
def encode : Instr → BitVec 3
  | .i2b => 0b001#3
  | .b2w => 0b010#3
  | .i2w => 0b011#3
  | .i2wm => 0b100#3
  | .w2i => 0b101#3
  | .w2b => 0b110#3
  | .b2i => 0b111#3

/-- The `OP` pattern of an instruction whose bits are `w`, of which the table gives `nbits`. `OP` is bits 2 down to 0;
the block has no wire for any bit above (R30, R39; log entry 4). -/
def opOfTableWord (nbits w : Nat) : BitVec 3 := BitVec.ofNat 3 (w % 2 ^ nbits)

/-- The instruction the decoder reads from an instruction whose bits are `w`, numbered as spec/opcode_table.json
numbers them; none where the decoder rejects the code. -/
def decodeTableWord (nbits w : Nat) : Option Instr :=
  match decode (opOfTableWord nbits w) with
  | .ok i => some i
  | .error _ => none

end Sys2Proof
end

