-- ==== Sys2Proof/Machine/State.lean ====
section
/-!
DEFINITION. The state of the machine: the input ports of the transaction in hand, the caller's transactions still to
come, and the transactions already answered. The block itself holds NO state between transactions (10_state.md R10,
R11, R12, R15, R16, R17): these fields are the transaction interface (R13) and the run of R81.
-/

namespace Sys2Proof.Machine

/-- One completed transaction: a request and the one response it got (00_scope.md section 5, "Transaction"; R82). -/
structure Transaction where
  /-- The patterns that were on the input ports. -/
  request : Request
  /-- The response on the output ports. -/
  response : Response
deriving DecidableEq, Repr

/-- The machine's state, plain data. No field is storage of the block: no operation reads `requests` or `done`, and
`req` is the request of the transaction in hand (R10, R13). -/
structure State where
  /-- The input ports `OP`, `X`, `BI`, `WI_*` (R13): the request of the transaction in hand. Between transactions the
  spec does not say what they show and no rule reads them: zero after reset (log entry 2, DESIGN CHOICE), the last
  request presented once there was one (log entry 13, DESIGN CHOICE). -/
  req : Request
  /-- The transactions the caller has still to present, next first (R81: a run is a finite sequence of transactions
  chosen by the caller). -/
  requests : List Request
  /-- The transactions answered so far, oldest first, each with its response on `ST`, `Y`, `BO`, `WO_*` (R13, R81: the
  result of a run is the list of responses). -/
  done : List Transaction
deriving DecidableEq, Repr

/-- Why the machine stops with a fault: never. The one error of the block, Overflow, is a response after which the
next transaction is served (R60, R62, R64), so it is a next state; no rule stops the block. The type has no
constructor, which is safe: no claim can rest on a fault. -/
inductive Fault where
deriving DecidableEq, Repr

/-- Why the model says nothing of a transaction. -/
inductive Refusal where
  /-- An instruction without a meaning in this model. Raised by an arm of `exec` that rejects by name; no arm does.
  Safe: nothing can be proved of the instruction. -/
  | notModelled (mnemonic : String)
  /-- `OP = 000` was presented. Raised by `step` before any operand is looked at (R36, R63, R69). Safe: the spec gives
  the transaction no response, and no claim may be made about one. -/
  | reservedOp
deriving DecidableEq, Repr

/-- The pattern the model lets the input ports show before the first transaction: all zero. The spec has no such
value and no rule reads it (R17; log entry 2, DESIGN CHOICE). -/
def idleRequest : Request :=
  { op := 0#3, x := 0, bi := 0#128, wi := { hiW0 := 0#32, hiW1 := 0#32, loW0 := 0#32, loW1 := 0#32 } }

/-- The machine right after reset: no transaction is pending (R74), none has been answered, and there is nothing else
to set (R17, R73). -/
def State.reset : State := { req := idleRequest, requests := [], done := [] }

end Sys2Proof.Machine
end

