-- ==== Sys2Proof/Machine/Flags.lean ====
section
/-!
DEFINITION. The overflow detector and the status `ST`, the block's one indication (10_state.md R15, 00_scope.md R6,
30_encoding.md R32).
-/

namespace Sys2Proof.Machine

/-- `InRange(v)`: `VMIN <= v <= VMAX`, the one condition of the block (R6, R60). -/
def inRange (v : Int) : Bool := decide (Config.vmin ≤ v ∧ v ≤ Config.vmax)

/-- The detector on an integer port of `xw` bits: bits `xw-1` down to 127 of the pattern are all equal, that is, the
operand is the sign extension of its own low 128 bits (R6, last form). -/
def signBitsAgree {xw : Nat} (p : BitVec xw) : Bool :=
  (List.range (xw - 127)).all fun k => p.getLsbD (127 + k) == p.getLsbD 127

/-- Whether the mask path raises Overflow on `v` (R5 MASK_CHECKS_RANGE, R48). -/
def maskRaises (v : Int) : Bool := Config.maskChecksRange && !inRange v

/-- The status `ST` of a response: 0 = OK, 1 = OVERFLOW; there is no other value (R32, R61). It is produced anew by
every transaction and no operation reads it (R15). -/
def statusOf : Response → BitVec 1
  | .okBuffer _ => 0#1
  | .okWire _ => 0#1
  | .okInteger _ => 0#1
  | .overflow => 1#1

end Sys2Proof.Machine
end

