-- ==== Sys2Proof/Machine/Operands.lean ====
section
/-!
DEFINITION. Operand assembly: the formats of the integer, buffer and wire-value ports (30_encoding.md R33, R34, R35).
-/

namespace Sys2Proof.Machine

/-- The integer the pattern of an `X` port of `xw` bits presents, `signed_XW(x)` (R33). -/
def integerOfPort {xw : Nat} (p : BitVec xw) : Int := signed xw p.toNat

/-- The pattern of a result `r` on a `Y` port of `xw` bits, `zext_XW(r)` (R33). -/
def portOfInteger (xw : Nat) (r : Int) : BitVec xw := BitVec.ofNat xw (zext xw r)

/-- The buffer a port presents: byte `B[i]` is port bits `127-8i` down to `120-8i` (R34). -/
def bufferOfPort (p : BufferPort) : Buffer := Vector.ofFn fun i => p.extractLsb' (120 - 8 * i.val) 8

/-- The buffer made of the first 16 bytes of a run, a missing byte as zero. -/
def bufferOfBytes (l : List Byte) : Buffer := Vector.ofFn fun i => l.getD i.val 0#8

/-- `U(B) = be(B[0], ..., B[15])`, the unsigned integer the buffer spells (R19). -/
def bufferValue (b : Buffer) : Nat := be b.toList

/-- The port pattern of a buffer: as an unsigned integer it is `U(B)` (R34). -/
def portOfBuffer (b : Buffer) : BufferPort := BitVec.ofNat 128 (bufferValue b)

/-- `hi_u = HI_W1 * 2^32 + HI_W0`, the unsigned 64-bit pattern of `hi` (R35). -/
def hiPattern (w : WireValue) : Nat := w.hiW1.toNat * 2 ^ 32 + w.hiW0.toNat

/-- `hi = signed_64(hi_u)` (R35). -/
def hiWord (w : WireValue) : Int := signed 64 (hiPattern w)

/-- `lo = LO_W1 * 2^32 + LO_W0` (R35). -/
def loWord (w : WireValue) : Nat := w.loW1.toNat * 2 ^ 32 + w.loW0.toNat

/-- The word-pairs of two 64-bit patterns: each word split into its less and more significant sub-word (R35). -/
def wireOfWords (hiU lo : Nat) : WireValue :=
  { hiW0 := BitVec.ofNat 32 (bits hiU 31 0)
    hiW1 := BitVec.ofNat 32 (bits hiU 63 32)
    loW0 := BitVec.ofNat 32 (bits lo 31 0)
    loW1 := BitVec.ofNat 32 (bits lo 63 32) }

/-- Whether two requests carry the same pattern on port `p` (R31, R37). -/
def samePort (p : InPort) (r r' : Request) : Bool :=
  match p with
  | .op => r.op == r'.op
  | .x => r.x == r'.x
  | .bi => r.bi == r'.bi
  | .wiHiW0 => r.wi.hiW0 == r'.wi.hiW0
  | .wiHiW1 => r.wi.hiW1 == r'.wi.hiW1
  | .wiLoW0 => r.wi.loW0 == r'.wi.loW0
  | .wiLoW1 => r.wi.loW1 == r'.wi.loW1

/-- Whether two requests agree on every operand port that operation `i` reads (R31, R37). -/
def agreeOnReads (i : Instr) (r r' : Request) : Bool := i.reads.all fun p => samePort p r r'

/-- A request whose integer operand is given as the pattern of an `X` port of `xw` bits (R33). -/
def requestOnPort {xw : Nat} (r : Request) (p : BitVec xw) : Request := { r with x := integerOfPort p }

/-- The pattern a response shows on a `Y` port of `xw` bits, if it drives `Y` (R33). -/
def responseOnPort (xw : Nat) (r : Response) : Option (BitVec xw) := r.y.map (portOfInteger xw)

end Sys2Proof.Machine
end

