-- ==== Sys2Proof/Machine/Ops.lean ====
section
/-!
DEFINITION. The shared operations: the two accesses to the buffer (20_memory.md R18 to R25), the byte-run helper
(40_buffer_path.md R42), the conversions the operations are made of, answering a transaction, and raising Overflow
(60_exceptions.md R62). There is no return from Overflow: no state is saved and no instruction returns (R64).
-/

namespace Sys2Proof.Machine

/-! ### The buffer -/

/-- `MemRead(B, i, n) = be(B[i], ..., B[i+n-1])`, for `i + n <= 16` (00_scope.md section 4, R29). -/
def memRead (b : Buffer) (i n : Nat) : Nat := be ((b.toList.drop i).take n)

/-- `MemWrite(B, i, n, u)` sets `B[i..i+n-1]` to `bytes_be_n(u)` and leaves the other bytes, for `i + n <= 16` and
`u < 256^n` (00_scope.md section 4). -/
def memWrite (b : Buffer) (i n u : Nat) : Buffer :=
  Vector.ofFn fun j => if i ≤ j.val ∧ j.val < i + n then byteOf n u (j.val - i) else b[j.val]

/-! ### The byte-run helper -/

/-- `chunk(signed, b_0, ..., b_(n-1))`, n >= 1 (R42). The first byte is an argument of its own, so the empty run, to
which the spec gives no meaning (91_not_in_source.md N16), cannot be presented. -/
def chunk (isSigned : Bool) (b0 : Byte) (rest : List Byte) : Int :=
  if isSigned && b0.getLsbD 7 then
    -1 * (be (BitVec.ofNat 8 (b0.toNat - 128) :: rest) : Int)
  else
    (be (b0 :: rest) : Int)

/-- The helper as the block calls it, signed flag off, on quarter Qk of the buffer, `B[4k..4k+3]` (R43). -/
def quarterChunk (b : Buffer) (k : Fin 4) : Int :=
  chunk false b[4 * k.val] [b[4 * k.val + 1], b[4 * k.val + 2], b[4 * k.val + 3]]

/-! ### The conversions -/

/-- The buffer of an in-range integer, written whole into the call's working buffer (R40). -/
def bufferOfInteger (working : Buffer) (v : Int) : Buffer := memWrite working 0 16 (zext 128 v)

/-- The word-pairs of a buffer: the quarters Q0 Q1 Q2 Q3 come out in the order Q1, Q0, Q3, Q2, the bytes inside a
quarter unswapped (R22, R44). -/
def wireOfBuffer (b : Buffer) : WireValue :=
  { hiW0 := BitVec.ofInt 32 (quarterChunk b 1)
    hiW1 := BitVec.ofInt 32 (quarterChunk b 0)
    loW0 := BitVec.ofInt 32 (quarterChunk b 3)
    loW1 := BitVec.ofInt 32 (quarterChunk b 2) }

/-- The buffer of a wire value: each sub-word written big-endian into its quarter of the call's working buffer
(R51). -/
def bufferOfWire (working : Buffer) (w : WireValue) : Buffer :=
  let b := memWrite working 0 4 w.hiW1.toNat
  let b := memWrite b 4 4 w.hiW0.toNat
  let b := memWrite b 8 4 w.loW1.toNat
  memWrite b 12 4 w.loW0.toNat

/-- The formula of the mask path, without its range check (R48, R49): `lo` by mask, `hi` by arithmetic shift and
mask. -/
def wireByMask (v : Int) : WireValue := wireOfWords (zext 64 (asr v 64)) (zext 64 v)

/-- `v = (sign_extend(hi) << 64) | lo` (R50). The two operands of the `|` have no common set bit, so it is the sum
(R110). -/
def integerOfWire (w : WireValue) : Int := sext 64 (hiPattern w) * 2 ^ 64 + loWord w

/-- The two's-complement reading of the buffer, `signed_128(U(B))` (R19, R52). -/
def integerOfBuffer (b : Buffer) : Int := signed 128 (memRead b 0 16)

/-! ### Transactions -/

/-- Put a request on the input ports, the rest of the caller's transactions staying to come (R81). It stays on the
ports until the next one is presented (log entry 13). -/
def State.present (s : State) (r : Request) (rest : List Request) : State :=
  { s with req := r, requests := rest }

/-- Answer the transaction in hand: its response is delivered to its caller and the transaction is over. Nothing is
retained by the block (R10, R82). The input ports go on showing the answered request: the spec does not say what they
show outside a transaction, and that they keep it is the model's choice (log entry 13, DESIGN CHOICE). -/
def State.answer (s : State) (rsp : Response) : State :=
  { s with done := s.done ++ [{ request := s.req, response := rsp }] }

/-- `raise Overflow`, the block's one exception: the transaction in hand gets the Overflow response, `ST = 1` and no
data port; nothing is saved, no mode changes, control goes nowhere (R62). -/
def raiseOverflow (s : State) : State := s.answer .overflow

/-- The working buffer of the call in hand: each call allocates its own (R67, R78). What it holds when fresh is free
(log entry 6). -/
def State.working (s : State) : Buffer := Config.workingBuffer s.done.length

end Sys2Proof.Machine
end

