-- ==== Sys2Proof/Machine/BufferPath.lean ====
section
/-!
DEFINITION. The buffer path: I2B, B2W, I2W (40_buffer_path.md R40, R44, R45).
-/

namespace Sys2Proof.Machine

/-- I2B (R40): the range check first and alone on failure (R46), else the buffer of the integer. -/
def execI2B (s : State) : Host.Outcome State Fault Refusal :=
  if !inRange s.req.x then .next (raiseOverflow s)
  else .next (s.answer (.okBuffer (portOfBuffer (bufferOfInteger s.working s.req.x))))

/-- B2W (R44): total, no range check. -/
def execB2W (s : State) : Host.Outcome State Fault Refusal :=
  .next (s.answer (.okWire (wireOfBuffer (bufferOfPort s.req.bi))))

/-- I2W (R45): I2B followed by B2W in one transaction; the buffer never leaves it. -/
def execI2W (s : State) : Host.Outcome State Fault Refusal :=
  if !inRange s.req.x then .next (raiseOverflow s)
  else .next (s.answer (.okWire (wireOfBuffer (bufferOfInteger s.working s.req.x))))

end Sys2Proof.Machine
end

