-- ==== Sys2Proof/Machine/DecodePath.lean ====
section
/-!
DEFINITION. The decode path: W2I, W2B, B2I (42_decode_path.md R50, R51, R52). None can raise Overflow (R53).
-/

namespace Sys2Proof.Machine

/-- W2I (R50). -/
def execW2I (s : State) : Host.Outcome State Fault Refusal :=
  .next (s.answer (.okInteger (integerOfWire s.req.wi)))

/-- W2B (R51). -/
def execW2B (s : State) : Host.Outcome State Fault Refusal :=
  .next (s.answer (.okBuffer (portOfBuffer (bufferOfWire s.working s.req.wi))))

/-- B2I (R52): the two's-complement reading, never the sign-magnitude one. -/
def execB2I (s : State) : Host.Outcome State Fault Refusal :=
  .next (s.answer (.okInteger (integerOfBuffer (bufferOfPort s.req.bi))))

end Sys2Proof.Machine
end

