-- ==== Sys2Proof/Machine/MaskPath.lean ====
section
/-!
DEFINITION. The mask path: I2WM (41_mask_path.md R48).
-/

namespace Sys2Proof.Machine

/-- I2WM (R48): the guard of decision D8, else mask and arithmetic shift. It goes through no buffer. -/
def execI2WM (s : State) : Host.Outcome State Fault Refusal :=
  if maskRaises s.req.x then .next (raiseOverflow s)
  else .next (s.answer (.okWire (wireByMask s.req.x)))

end Sys2Proof.Machine
end

