-- ==== Sys2Proof/Machine/Dispatch.lean ====
section
/-!
DEFINITION. The dispatch of the seven operations (30_encoding.md R30), one arm per constructor.
-/

namespace Sys2Proof.Machine

def exec (i : Instr) (s : State) : Host.Outcome State Fault Refusal :=
  match i with
  | .i2b => Sys2Proof.Machine.execI2B s
  | .b2w => Sys2Proof.Machine.execB2W s
  | .i2w => Sys2Proof.Machine.execI2W s
  | .i2wm => Sys2Proof.Machine.execI2WM s
  | .w2i => Sys2Proof.Machine.execW2I s
  | .w2b => Sys2Proof.Machine.execW2B s
  | .b2i => Sys2Proof.Machine.execB2I s

end Sys2Proof.Machine
end

