-- ==== Sys2Proof/Machine/Fetch.lean ====
section
/-!
DEFINITION. How the machine comes by its next operation: there is no program counter and no fetch from memory
(10_state.md R12); the operation select is the `OP` port of the next request the caller presents (R81).
-/

namespace Sys2Proof.Machine

/-- The next transaction the caller presents, and those after it; none when the run is over (R81). -/
def nextRequest (s : State) : Option (Request × List Request) :=
  match s.requests with
  | [] => none
  | r :: rest => some (r, rest)

/-- The caller's transactions with `op` on the `OP` port of the next one; with none to come, one transaction is
presented, its operand ports as the input ports stand (log entry 5): the zeros of reset (log entry 2) or the operands of
the last request presented (log entry 13). -/
def requestsWithOp (s : State) (op : BitVec 3) : List Request :=
  match s.requests with
  | [] => [{ s.req with op := op }]
  | r :: rest => { r with op := op } :: rest

end Sys2Proof.Machine
end

