-- ==== Sys2Proof/Machine/Step.lean ====
section
/-!
DEFINITION. One step of the machine: one transaction (70_reset_and_hazards.md R81). A transaction is indivisible
(20_memory.md R25).
-/

namespace Sys2Proof.Machine

/-- Serve the next transaction of the caller. The operation select is settled before any operand is looked at: the
reserved code is refused (R36, R63, R69). With no transaction to serve the run is over and nothing changes
(R81; log entry 3). -/
def step (s : State) : Host.Outcome State Fault Refusal :=
  match nextRequest s with
  | none => .next s
  | some (r, rest) =>
    match decode r.op with
    | .error .reservedOp => .refused .reservedOp
    | .ok i => exec i (s.present r rest)

/-- The state with the instruction whose bits are `w` on the `OP` port of the next transaction, so that `step` runs
it. -/
def State.withFetchWord (s : State) (nbits w : Nat) : State :=
  { s with requests := requestsWithOp s (opOfTableWord nbits w) }

end Sys2Proof.Machine
end

