-- ==== Sys2Proof/Machine/Legacy.lean ====
section
/-!
DEFINITION. The discarded legacy procedure `L(v)` of 40_buffer_path.md section 6, which NO operation of the block
performs (00_scope.md R3). It is here so that the interoperability hazard of R79 can be stated.
-/

namespace Sys2Proof.Machine

/-- Clear bit 7 of the first byte. -/
def clearTopBit : List Byte → List Byte
  | [] => []
  | b :: bs => (b &&& 0x7F#8) :: bs

/-- Set bit 7 of the first byte. -/
def setTopBit : List Byte → List Byte
  | [] => []
  | b :: bs => (b ||| 0x80#8) :: bs

/-- `L(v)`: the bytes a legacy sign-magnitude encoder makes, or none where it reports overflow (40_buffer_path.md
section 6). -/
def legacyBytes (v : Int) : Option (List Byte) :=
  let s := minimalBytes v.natAbs
  if 16 < s.length then none
  else if v < 0 then
    let s := clearTopBit s
    some (setTopBit (List.replicate (16 - s.length) 0#8 ++ s))
  else some (List.replicate (16 - s.length) 0#8 ++ s)

end Sys2Proof.Machine
end

