-- ==== Sys2Proof/Safety.lean ====
section
/-!
DEFINITION. What counts as a good run, in terms a claim can use: the response a request gets alone, the contract each
operation keeps with its caller, stated without the model's own operations, and the invariant of a run.
-/

namespace Sys2Proof.Machine

/-- `respond : Request -> Response` of R10, with the refusal of R36 at its boundary: the response a request gets when
it is the only transaction of a run. -/
def respond (r : Request) : Option Response :=
  match step { State.reset with requests := [r] } with
  | .next s => s.done.getLast?.map (·.response)
  | _ => none

/-- The 128-bit pattern a wire value spells, `hi` above `lo` (R14, R35). -/
def wirePattern (w : WireValue) : BitVec 128 := w.hiW1 ++ w.hiW0 ++ w.loW1 ++ w.loW0

/-- What the caller is owed for an operation (R40, R44, R45, R48, R50, R51, R52), said with the two's-complement
reading of a bit vector alone, so that it is independent of the operations of the model. -/
def Contract (i : Instr) (r : Request) (rsp : Response) : Prop :=
  match i with
  | .i2b =>
    if -2 ^ 127 ≤ r.x ∧ r.x ≤ 2 ^ 127 - 1 then ∃ bo : BitVec 128, rsp = .okBuffer bo ∧ bo.toInt = r.x
    else rsp = .overflow
  | .b2w => ∃ w, rsp = .okWire w ∧ wirePattern w = r.bi
  | .i2w =>
    if -2 ^ 127 ≤ r.x ∧ r.x ≤ 2 ^ 127 - 1 then ∃ w, rsp = .okWire w ∧ (wirePattern w).toInt = r.x
    else rsp = .overflow
  | .i2wm =>
    if -2 ^ 127 ≤ r.x ∧ r.x ≤ 2 ^ 127 - 1 then ∃ w, rsp = .okWire w ∧ (wirePattern w).toInt = r.x
    else rsp = .overflow
  | .w2i => rsp = .okInteger (wirePattern r.wi).toInt
  | .w2b => rsp = .okBuffer (wirePattern r.wi)
  | .b2i => rsp = .okInteger r.bi.toInt

/-- The invariant of a run: every transaction answered so far was a legal one and got what its contract owes it. -/
def HonouredRun (s : State) : Prop :=
  ∀ t ∈ s.done, ∃ i, decode t.request.op = .ok i ∧ Contract i t.request t.response

/-- The host keeps its one duty toward the model: no transaction it will present has the reserved code (R82). -/
def LegalRun (s : State) : Prop := ∀ r ∈ s.requests, r.wf = true

end Sys2Proof.Machine
end

