-- ==== Sys2Proof/Certificates/Slice0/Obligations.lean ====
section
/-!
DEFINITION. The statements for the provers. A next state is always written out, `{ s with done := s.done ++ [...] }`,
so that each statement of a result is its frame too: the input ports, the transactions still to come and the earlier
answers are unchanged, and the transaction in hand has exactly the response named. That the input ports go on showing
the request once it is answered (`req` kept by `exec`, `req := r` after a step) is the model's choice wherever it occurs
below (log entry 13) and rests on no rule cited. The block has no register, flag,
program counter or memory besides (R10, R11, R12, R15, R16, R18).
-/

open Sys2Proof Sys2Proof.Machine

/-! ### Encoding and the step -/

/-- R30: the codes of the seven operations, each written out from the table, and the reserved code. -/
def Obligations.CodesOfTheTable : Prop :=
  decode 0b000#3 = .error .reservedOp ∧ decode 0b001#3 = .ok .i2b ∧ decode 0b010#3 = .ok .b2w ∧
  decode 0b011#3 = .ok .i2w ∧ decode 0b100#3 = .ok .i2wm ∧ decode 0b101#3 = .ok .w2i ∧
  decode 0b110#3 = .ok .w2b ∧ decode 0b111#3 = .ok .b2i

/-- R30: decoding and encoding agree on every well-formed operation and on every code that is not reserved. -/
def Obligations.DecodeAndEncodeAgree : Prop :=
  (∀ i : Instr, i.wf = true → decode (encode i) = .ok i ∧ opWf (encode i) = true) ∧
  (∀ (op : BitVec 3) (i : Instr), decode op = .ok i → encode i = op) ∧
  (∀ op : BitVec 3, opWf op = true → ∃ i, decode op = .ok i)

/-- An instruction word of the table is decoded by its bits 2 down to 0 alone. That a word may be wider than `OP`,
and that its further bits have no wire, is the model's convention (log entry 4). -/
def Obligations.TableWordDecodedByItsLowBits : Prop :=
  ∀ (nbits w : Nat) (i : Instr), 3 ≤ nbits →
    (decodeTableWord nbits w = some i ↔ w % 8 = (encode i).toNat)

/-- A step runs the decoded operation: with a transaction to serve whose code decodes to `i`, the step is `exec i`
with that request on the input ports and the rest of the run still to come. -/
def Obligations.StepRunsDecodedOperation : Prop :=
  ∀ (s : State) (r : Request) (rest : List Request) (i : Instr),
    s.requests = r :: rest → decode r.op = .ok i →
      step s = exec i { req := r, requests := rest, done := s.done }

/-- R36: `OP = 000` is invalid to the decoder and refused by the machine, whatever the operands are, and the other
seven codes are all assigned. -/
def Obligations.ReservedCodeIsRefused : Prop :=
  (∀ (s : State) (r : Request) (rest : List Request), s.requests = r :: rest → r.op = 0#3 →
    decode r.op = .error .reservedOp ∧ step s = .refused .reservedOp) ∧
  (∀ op : BitVec 3, op ≠ 0#3 → ∃ i, decode op = .ok i)

/-- With no transaction to serve a step changes nothing. The model's choice (log entry 3). -/
def Obligations.EmptyRunIsIdle : Prop :=
  ∀ s : State, s.requests = [] → step s = .next s

/-- A word put on the `OP` port is what the very next step runs. Where the machine has no transaction to come, that
one is presented on the input ports as they stand, is the model's choice (log entry 5), and so is what they show then
(log entries 2 and 13). -/
def Obligations.FetchWordIsRunNext : Prop :=
  ∀ (s : State) (nbits w : Nat) (i : Instr), 3 ≤ nbits → w % 8 = (encode i).toNat →
    ∃ r rest, (s.withFetchWord nbits w).requests = r :: rest ∧ r.op = encode i ∧
      (s.requests = [] → r = { s.req with op := encode i } ∧ rest = []) ∧
      (∀ r₀ rest₀, s.requests = r₀ :: rest₀ → r = { r₀ with op := encode i } ∧ rest = rest₀) ∧
      step (s.withFetchWord nbits w) = exec i { s with req := r, requests := rest }

/-- R74: no transaction is pending at reset; and none has been answered, which is the model's own field. -/
def Obligations.NothingPendingAtReset : Prop :=
  State.reset.requests = [] ∧ State.reset.done = []

/-- R80: every transaction with a code that is not reserved gets exactly one response in its own step, and the step
neither faults nor refuses. -/
def Obligations.EveryLegalTransactionIsAnswered : Prop :=
  ∀ (s : State) (r : Request) (rest : List Request), s.requests = r :: rest → r.op ≠ 0#3 →
    ∃ rsp, step s = .next { req := r, requests := rest, done := s.done ++ [⟨r, rsp⟩] }

/-- R10: the response is a function of the request alone: two transactions with equal requests get equal responses,
whatever was answered before and whatever comes after, namely the response the request gets alone. -/
def Obligations.ResponseDependsOnRequestAlone : Prop :=
  ∀ (s s' : State) (r : Request) (rest rest' : List Request),
    s.requests = r :: rest → s'.requests = r :: rest' → r.op ≠ 0#3 →
    ∃ rsp, respond r = some rsp ∧
      step s = .next { req := r, requests := rest, done := s.done ++ [⟨r, rsp⟩] } ∧
      step s' = .next { req := r, requests := rest', done := s'.done ++ [⟨r, rsp⟩] }

/-! ### The operations -/

/-- R40: I2B. In range, `BO` is the 128-bit two's-complement pattern of the integer, byte `i` being
`u[8*(15-i)+7 : 8*(15-i)]` of `u = zext_128(v)`, and the sign bit is 1 exactly for a negative integer; out of range,
Overflow and nothing else. `ST` is 0 on success and 1 on Overflow. -/
def Obligations.I2BByRule : Prop :=
  encode .i2b = 0b001#3 ∧
  ∀ s : State,
    ((-2 ^ 127 ≤ s.req.x ∧ s.req.x ≤ 2 ^ 127 - 1) →
      ∃ bo : BitVec 128,
        exec .i2b s = .next { s with done := s.done ++ [⟨s.req, .okBuffer bo⟩] } ∧
        statusOf (.okBuffer bo) = 0#1 ∧ bo = BitVec.ofInt 128 s.req.x ∧
        (∀ (i : Nat) (h : i < 16),
          (bufferOfPort bo)[i].toNat = bits (zext 128 s.req.x) (8 * (15 - i) + 7) (8 * (15 - i))) ∧
        ((bufferOfPort bo)[0].getLsbD 7 = true ↔ s.req.x < 0)) ∧
    (¬ (-2 ^ 127 ≤ s.req.x ∧ s.req.x ≤ 2 ^ 127 - 1) →
      exec .i2b s = .next { s with done := s.done ++ [⟨s.req, .overflow⟩] } ∧
      statusOf .overflow = 1#1)

/-- R44: B2W. The sub-words are the quarters Q1, Q0, Q3, Q2, each the helper's unsigned value of its four bytes, and
the words they spell are `hi = signed_64(MemRead(B, 0, 8))` and `lo = MemRead(B, 8, 8)`. -/
def Obligations.B2WByRule : Prop :=
  encode .b2w = 0b010#3 ∧
  ∀ s : State, ∃ w : WireValue,
    exec .b2w s = .next { s with done := s.done ++ [⟨s.req, .okWire w⟩] } ∧
    statusOf (.okWire w) = 0#1 ∧
    (let b := bufferOfPort s.req.bi
     ((w.hiW0.toNat : Int) = chunk false b[4] [b[5], b[6], b[7]] ∧ w.hiW0.toNat = memRead b 4 4) ∧
     ((w.hiW1.toNat : Int) = chunk false b[0] [b[1], b[2], b[3]] ∧ w.hiW1.toNat = memRead b 0 4) ∧
     ((w.loW0.toNat : Int) = chunk false b[12] [b[13], b[14], b[15]] ∧ w.loW0.toNat = memRead b 12 4) ∧
     ((w.loW1.toNat : Int) = chunk false b[8] [b[9], b[10], b[11]] ∧ w.loW1.toNat = memRead b 8 4) ∧
     hiWord w = signed 64 (memRead b 0 8) ∧ loWord w = memRead b 8 8)

/-- R45: I2W. In range, the sub-words are the quarters of the buffer `bytes_be_16(zext_128(v))`, and they spell `v`;
out of range, Overflow and nothing else. -/
def Obligations.I2WByRule : Prop :=
  encode .i2w = 0b011#3 ∧
  ∀ s : State,
    ((-2 ^ 127 ≤ s.req.x ∧ s.req.x ≤ 2 ^ 127 - 1) →
      ∃ w : WireValue,
        exec .i2w s = .next { s with done := s.done ++ [⟨s.req, .okWire w⟩] } ∧
        statusOf (.okWire w) = 0#1 ∧
        (let b := bufferOfBytes (bytesBe 16 (zext 128 s.req.x))
         w.hiW0.toNat = memRead b 4 4 ∧ w.hiW1.toNat = memRead b 0 4 ∧
         w.loW0.toNat = memRead b 12 4 ∧ w.loW1.toNat = memRead b 8 4) ∧
        signed 64 (w.hiW1.toNat * 2 ^ 32 + w.hiW0.toNat) * 2 ^ 64 +
          (w.loW1.toNat * 2 ^ 32 + w.loW0.toNat : Nat) = s.req.x) ∧
    (¬ (-2 ^ 127 ≤ s.req.x ∧ s.req.x ≤ 2 ^ 127 - 1) →
      exec .i2w s = .next { s with done := s.done ++ [⟨s.req, .overflow⟩] } ∧
      statusOf .overflow = 1#1)

/-- R47: the closed form of the I2W result, without the buffer; the mask path computes the same. -/
def Obligations.I2WClosedForm : Prop :=
  ∀ s : State, (-2 ^ 127 ≤ s.req.x ∧ s.req.x ≤ 2 ^ 127 - 1) →
    ∃ w : WireValue,
      exec .i2w s = .next { s with done := s.done ++ [⟨s.req, .okWire w⟩] } ∧
      exec .i2wm s = .next { s with done := s.done ++ [⟨s.req, .okWire w⟩] } ∧
      (let u := zext 128 s.req.x
       w.hiW1.toNat = bits u 127 96 ∧ w.hiW0.toNat = bits u 95 64 ∧
       w.loW1.toNat = bits u 63 32 ∧ w.loW0.toNat = bits u 31 0 ∧
       hiWord w = signed 64 (bits u 127 64) ∧ hiWord w = asr s.req.x 64 ∧
       loWord w = bits u 63 0 ∧ (loWord w : Int) = s.req.x % 2 ^ 64)

/-- R48: I2WM. In range, `lo` by mask and `hi` by arithmetic shift, mask and reinterpretation, split into the
word-pairs; out of range, Overflow and nothing else. -/
def Obligations.I2WMByRule : Prop :=
  encode .i2wm = 0b100#3 ∧
  ∀ s : State,
    ((-2 ^ 127 ≤ s.req.x ∧ s.req.x ≤ 2 ^ 127 - 1) →
      ∃ w : WireValue,
        exec .i2wm s = .next { s with done := s.done ++ [⟨s.req, .okWire w⟩] } ∧
        statusOf (.okWire w) = 0#1 ∧
        (let lo := zext 64 s.req.x
         let hiU := zext 64 (Int.fdiv s.req.x (2 ^ 64))
         w.hiW0.toNat = bits hiU 31 0 ∧ w.hiW1.toNat = bits hiU 63 32 ∧
         w.loW0.toNat = bits lo 31 0 ∧ w.loW1.toNat = bits lo 63 32 ∧
         hiWord w = signed 64 hiU ∧ hiWord w = Int.fdiv s.req.x (2 ^ 64) ∧ loWord w = lo)) ∧
    (¬ (-2 ^ 127 ≤ s.req.x ∧ s.req.x ≤ 2 ^ 127 - 1) →
      exec .i2wm s = .next { s with done := s.done ++ [⟨s.req, .overflow⟩] } ∧
      statusOf .overflow = 1#1)

/-- R50: W2I. `v = (sign_extend(hi) << 64) | lo`, exact as an integer and as the pattern of a `Y` port of every
permitted width; the result is in range and its sign is bit 31 of `WI_HI_W1`. -/
def Obligations.W2IByRule : Prop :=
  encode .w2i = 0b101#3 ∧
  ∀ s : State, ∃ y : Int,
    exec .w2i s = .next { s with done := s.done ++ [⟨s.req, .okInteger y⟩] } ∧
    statusOf (.okInteger y) = 0#1 ∧
    (let hiU : Nat := s.req.wi.hiW1.toNat * 2 ^ 32 + s.req.wi.hiW0.toNat
     let lo : Nat := s.req.wi.loW1.toNat * 2 ^ 32 + s.req.wi.loW0.toNat
     y = sext 64 hiU * 2 ^ 64 + lo ∧
     sext 64 hiU = (if hiU < 2 ^ 63 then (hiU : Int) else (hiU : Int) - 2 ^ 64) ∧
     (∀ xw : Nat, 129 ≤ xw →
       responseOnPort xw (.okInteger y) =
         some (((BitVec.ofNat 64 hiU).signExtend xw <<< 64) ||| BitVec.ofNat xw lo))) ∧
    -2 ^ 127 ≤ y ∧ y ≤ 2 ^ 127 - 1 ∧ (y < 0 ↔ s.req.wi.hiW1.getLsbD 31 = true)

/-- R51: W2B. Each sub-word is written big-endian into its quarter; `U(B) = hi_u * 2^64 + lo`; the sign bit is bit 31
of `WI_HI_W1`. -/
def Obligations.W2BByRule : Prop :=
  encode .w2b = 0b110#3 ∧
  ∀ s : State, ∃ bo : BitVec 128,
    exec .w2b s = .next { s with done := s.done ++ [⟨s.req, .okBuffer bo⟩] } ∧
    statusOf (.okBuffer bo) = 0#1 ∧
    (let b := bufferOfPort bo
     memRead b 0 4 = s.req.wi.hiW1.toNat ∧ memRead b 4 4 = s.req.wi.hiW0.toNat ∧
     memRead b 8 4 = s.req.wi.loW1.toNat ∧ memRead b 12 4 = s.req.wi.loW0.toNat ∧
     bufferValue b = hiPattern s.req.wi * 2 ^ 64 + loWord s.req.wi ∧
     b[0].getLsbD 7 = s.req.wi.hiW1.getLsbD 31)

/-- R52: B2I. The two's-complement reading of the whole buffer, in range, never the sign-magnitude one. -/
def Obligations.B2IByRule : Prop :=
  encode .b2i = 0b111#3 ∧
  ∀ s : State, ∃ y : Int,
    exec .b2i s = .next { s with done := s.done ++ [⟨s.req, .okInteger y⟩] } ∧
    statusOf (.okInteger y) = 0#1 ∧
    (let b := bufferOfPort s.req.bi
     y = signed 128 (memRead b 0 16) ∧
     y = (if b[0].getLsbD 7 = true then ((memRead b 0 16 : Nat) : Int) - 2 ^ 128
       else ((memRead b 0 16 : Nat) : Int))) ∧
    y = s.req.bi.toInt ∧ -2 ^ 127 ≤ y ∧ y ≤ 2 ^ 127 - 1 ∧
    (∀ xw : Nat, 129 ≤ xw → responseOnPort xw (.okInteger y) = some (s.req.bi.signExtend xw))

/-! ### Overflow, status and ports -/

/-- R61: which operations raise Overflow and exactly when; `ST` is 1 exactly then, and no data port goes with it. -/
def Obligations.OverflowRaisedExactly : Prop :=
  ∀ (i : Instr) (s : State), ∃ rsp,
    exec i s = .next { s with done := s.done ++ [⟨s.req, rsp⟩] } ∧
    (rsp = .overflow ↔ (i = .i2b ∨ i = .i2w ∨ i = .i2wm) ∧ ¬ (-2 ^ 127 ≤ s.req.x ∧ s.req.x ≤ 2 ^ 127 - 1)) ∧
    (statusOf rsp = 1#1 ↔ rsp = .overflow) ∧ (rsp = .overflow → rsp.drives = [])

/-- R62: an Overflow response is delivered in the same transaction and carries nothing; nothing is saved or changed
but that the transaction is answered. -/
def Obligations.OverflowDelivery : Prop :=
  ∀ (i : Instr) (s : State), (i = .i2b ∨ i = .i2w ∨ i = .i2wm) →
    ¬ (-2 ^ 127 ≤ s.req.x ∧ s.req.x ≤ 2 ^ 127 - 1) →
    ∃ rsp, exec i s = .next { s with done := s.done ++ [⟨s.req, rsp⟩] } ∧
      statusOf rsp = 1#1 ∧ rsp.y = none ∧ rsp.bo = none ∧ rsp.wo = none

/-- R31: the `Ok` response of each operation drives exactly the data ports of its row, with `ST = 0`; an operation
whose row says so, and no other, can answer Overflow instead. -/
def Obligations.ResponseDrivesItsPorts : Prop :=
  ∀ (i : Instr) (s : State), ∃ rsp,
    exec i s = .next { s with done := s.done ++ [⟨s.req, rsp⟩] } ∧
    ((statusOf rsp = 0#1 ∧ rsp.drives = i.drives) ∨
      (statusOf rsp = 1#1 ∧ rsp = .overflow ∧ i.canOverflow = true))

/-- An input port an operation does not read is ignored: two states whose requests agree on the ports the operation
reads get the same response, whatever patterns the other ports carry and whatever else differs. An output port the
operation does not drive, and every data port of an Overflow response, has no value. This is R37 for ports that carry
a pattern: R37 also lets an unread port carry none, which a request of the model cannot show (log entry 10, DESIGN
CHOICE). -/
def Obligations.UnreadPortsAreIgnored : Prop :=
  ∀ (i : Instr) (s s' : State), agreeOnReads i s.req s'.req = true →
    ∃ rsp, exec i s = .next { s with done := s.done ++ [⟨s.req, rsp⟩] } ∧
      exec i s' = .next { s' with done := s'.done ++ [⟨s'.req, rsp⟩] } ∧
      (OutPort.y ∉ i.drives ∨ rsp = .overflow → rsp.y = none) ∧
      (OutPort.bo ∉ i.drives ∨ rsp = .overflow → rsp.bo = none) ∧
      (OutPort.woHiW0 ∉ i.drives ∧ OutPort.woHiW1 ∉ i.drives ∧ OutPort.woLoW0 ∉ i.drives ∧
        OutPort.woLoW1 ∉ i.drives ∨ rsp = .overflow → rsp.wo = none)

/-- R53: W2I, W2B and B2I are total and never raise Overflow, their integer results are in range, and both ends of
the range are reached. -/
def Obligations.DecodePathNeverOverflows : Prop :=
  (∀ s : State,
    (∃ y : Int, exec .w2i s = .next { s with done := s.done ++ [⟨s.req, .okInteger y⟩] } ∧
      -2 ^ 127 ≤ y ∧ y ≤ 2 ^ 127 - 1) ∧
    (∃ bo, exec .w2b s = .next { s with done := s.done ++ [⟨s.req, .okBuffer bo⟩] }) ∧
    (∃ y : Int, exec .b2i s = .next { s with done := s.done ++ [⟨s.req, .okInteger y⟩] } ∧
      -2 ^ 127 ≤ y ∧ y ≤ 2 ^ 127 - 1)) ∧
  (∀ s : State, hiWord s.req.wi = -2 ^ 63 → loWord s.req.wi = 0 →
    exec .w2i s = .next { s with done := s.done ++ [⟨s.req, .okInteger (-2 ^ 127)⟩] }) ∧
  (∀ s : State, hiWord s.req.wi = 2 ^ 63 - 1 → loWord s.req.wi = 2 ^ 64 - 1 →
    exec .w2i s = .next { s with done := s.done ++ [⟨s.req, .okInteger (2 ^ 127 - 1)⟩] })

/-! ### The required properties of 45_properties.md -/

/-- R100: for every integer in range, decoding the wire value that encoding it produces gives back that integer, by
either encode path. -/
def Obligations.EncodeThenDecodeGivesTheIntegerBack : Prop :=
  ∀ (i : Instr) (s : State), (i = .i2w ∨ i = .i2wm) → (-2 ^ 127 ≤ s.req.x ∧ s.req.x ≤ 2 ^ 127 - 1) →
    ∃ w : WireValue,
      exec i s = .next { s with done := s.done ++ [⟨s.req, .okWire w⟩] } ∧
      ∀ t : State, t.req.wi = w →
        exec .w2i t = .next { t with done := t.done ++ [⟨t.req, .okInteger s.req.x⟩] }

/-- R101: the buffer path and the mask path answer alike on every integer: the same four sub-words in range, Overflow
out of range. That they agree out of range too is the spec's decision D8 (92_eei_decisions.md), which R101 cites: the
mask path checks the range. -/
def Obligations.BufferPathAgreesWithMaskPath : Prop :=
  ∀ s : State, exec .i2w s = exec .i2wm s ∧
    ((-2 ^ 127 ≤ s.req.x ∧ s.req.x ≤ 2 ^ 127 - 1) →
      ∃ w, exec .i2w s = .next { s with done := s.done ++ [⟨s.req, .okWire w⟩] }) ∧
    (¬ (-2 ^ 127 ≤ s.req.x ∧ s.req.x ≤ 2 ^ 127 - 1) →
      exec .i2w s = .next { s with done := s.done ++ [⟨s.req, .overflow⟩] })

/-- R102: the four literals of the overflow detector, and the general condition, of each encode operation. -/
def Obligations.OverflowDetection : Prop :=
  ∀ (i : Instr) (s : State), (i = .i2b ∨ i = .i2w ∨ i = .i2wm) →
    (s.req.x = 170141183460469231731687303715884105728 →
      exec i s = .next { s with done := s.done ++ [⟨s.req, .overflow⟩] }) ∧
    (s.req.x = -170141183460469231731687303715884105729 →
      exec i s = .next { s with done := s.done ++ [⟨s.req, .overflow⟩] }) ∧
    (s.req.x = 170141183460469231731687303715884105727 ∨ s.req.x = -170141183460469231731687303715884105728 →
      ∃ rsp, exec i s = .next { s with done := s.done ++ [⟨s.req, rsp⟩] } ∧ statusOf rsp = 0#1) ∧
    (exec i s = .next { s with done := s.done ++ [⟨s.req, .overflow⟩] } ↔
      ¬ (-2 ^ 127 ≤ s.req.x ∧ s.req.x ≤ 2 ^ 127 - 1))

/-- R103: the literals for 0, 1 and -1, as sub-words and as words, of both encode paths. -/
def Obligations.ZeroAndBoundaryLiterals : Prop :=
  ∀ (i : Instr) (s : State), (i = .i2w ∨ i = .i2wm) →
    ∃ w : WireValue,
      (s.req.x = 0 ∨ s.req.x = 1 ∨ s.req.x = -1 →
        exec i s = .next { s with done := s.done ++ [⟨s.req, .okWire w⟩] }) ∧
      (s.req.x = 0 → w = ⟨0#32, 0#32, 0#32, 0#32⟩ ∧ hiWord w = 0 ∧ loWord w = 0) ∧
      (s.req.x = 1 → w = ⟨0#32, 0#32, 1#32, 0#32⟩ ∧ hiWord w = 0 ∧ loWord w = 1) ∧
      (s.req.x = -1 → w = ⟨0xFFFFFFFF#32, 0xFFFFFFFF#32, 0xFFFFFFFF#32, 0xFFFFFFFF#32⟩ ∧
        hiWord w = -1 ∧ loWord w = 2 ^ 64 - 1)

/-- R104: the sign bit of the buffer, of the buffer rebuilt from the wire value, of `HI_W1`, and the sign of `hi`, is
that of the integer. -/
def Obligations.SignBitPlacement : Prop :=
  ∀ s : State, (-2 ^ 127 ≤ s.req.x ∧ s.req.x ≤ 2 ^ 127 - 1) →
    (∃ bo : BitVec 128, exec .i2b s = .next { s with done := s.done ++ [⟨s.req, .okBuffer bo⟩] } ∧
      (bufferOfPort bo)[0].getLsbD 7 = decide (s.req.x < 0)) ∧
    (∃ w : WireValue, exec .i2w s = .next { s with done := s.done ++ [⟨s.req, .okWire w⟩] } ∧
      w.hiW1.getLsbD 31 = decide (s.req.x < 0) ∧ (hiWord w < 0 ↔ s.req.x < 0) ∧
      ∀ t : State, t.req.wi = w →
        ∃ bo : BitVec 128, exec .w2b t = .next { t with done := t.done ++ [⟨t.req, .okBuffer bo⟩] } ∧
          (bufferOfPort bo)[0].getLsbD 7 = decide (s.req.x < 0))

/-- The block's part of R105: the integer the scale convention gives for 12.5 encodes to `hi = 0, lo = 125000000`. -/
def Obligations.ScaledAmountEncodes : Prop :=
  ∀ s : State, s.req.x = 125000000 →
    exec .i2w s = .next { s with done := s.done ++ [⟨s.req, .okWire ⟨0#32, 0#32, 0x07735940#32, 0#32⟩⟩] } ∧
    hiWord ⟨0#32, 0#32, 0x07735940#32, 0#32⟩ = 0 ∧ loWord ⟨0#32, 0#32, 0x07735940#32, 0#32⟩ = 125000000

/-- R106: every wire value decodes to an in-range integer that both paths encode back to it, and it is the encoding
of no other in-range integer. -/
def Obligations.DecodeThenEncodeGivesTheWireValueBack : Prop :=
  ∀ s : State, ∃ y : Int,
    exec .w2i s = .next { s with done := s.done ++ [⟨s.req, .okInteger y⟩] } ∧
    -2 ^ 127 ≤ y ∧ y ≤ 2 ^ 127 - 1 ∧
    (∀ t : State, t.req.x = y →
      exec .i2w t = .next { t with done := t.done ++ [⟨t.req, .okWire s.req.wi⟩] } ∧
      exec .i2wm t = .next { t with done := t.done ++ [⟨t.req, .okWire s.req.wi⟩] }) ∧
    (∀ t : State, exec .i2w t = .next { t with done := t.done ++ [⟨t.req, .okWire s.req.wi⟩] } → t.req.x = y)

/-- R107: W2B and B2W undo each other on every wire value and every buffer, B2I undoes I2B in range, and I2B undoes
B2I on every buffer, without Overflow. -/
def Obligations.BufferConversionsAreInverse : Prop :=
  (∀ s : State, ∃ w, exec .b2w s = .next { s with done := s.done ++ [⟨s.req, .okWire w⟩] } ∧
    ∀ t : State, t.req.wi = w →
      exec .w2b t = .next { t with done := t.done ++ [⟨t.req, .okBuffer s.req.bi⟩] }) ∧
  (∀ s : State, ∃ bo, exec .w2b s = .next { s with done := s.done ++ [⟨s.req, .okBuffer bo⟩] } ∧
    ∀ t : State, t.req.bi = bo →
      exec .b2w t = .next { t with done := t.done ++ [⟨t.req, .okWire s.req.wi⟩] }) ∧
  (∀ s : State, (-2 ^ 127 ≤ s.req.x ∧ s.req.x ≤ 2 ^ 127 - 1) →
    ∃ bo, exec .i2b s = .next { s with done := s.done ++ [⟨s.req, .okBuffer bo⟩] } ∧
    ∀ t : State, t.req.bi = bo →
      exec .b2i t = .next { t with done := t.done ++ [⟨t.req, .okInteger s.req.x⟩] }) ∧
  (∀ s : State, ∃ y, exec .b2i s = .next { s with done := s.done ++ [⟨s.req, .okInteger y⟩] } ∧
    ∀ t : State, t.req.x = y →
      exec .i2b t = .next { t with done := t.done ++ [⟨t.req, .okBuffer s.req.bi⟩] })

/-- R108: between any two of the three value types, in each of the six directions, the direct way and the way through
the third give the same result, and Overflow arises only on leaving the integer type out of range. -/
def Obligations.TriangleCommutes : Prop :=
  (∀ s : State, (-2 ^ 127 ≤ s.req.x ∧ s.req.x ≤ 2 ^ 127 - 1) →
    ∃ bo w, exec .i2b s = .next { s with done := s.done ++ [⟨s.req, .okBuffer bo⟩] } ∧
      exec .i2w s = .next { s with done := s.done ++ [⟨s.req, .okWire w⟩] } ∧
      (∀ t : State, t.req.bi = bo →
        exec .b2w t = .next { t with done := t.done ++ [⟨t.req, .okWire w⟩] }) ∧
      (∀ t : State, t.req.wi = w →
        exec .w2b t = .next { t with done := t.done ++ [⟨t.req, .okBuffer bo⟩] })) ∧
  (∀ s : State, ∃ bo y, exec .w2b s = .next { s with done := s.done ++ [⟨s.req, .okBuffer bo⟩] } ∧
    exec .w2i s = .next { s with done := s.done ++ [⟨s.req, .okInteger y⟩] } ∧
    (∀ t : State, t.req.bi = bo →
      exec .b2i t = .next { t with done := t.done ++ [⟨t.req, .okInteger y⟩] }) ∧
    (∀ t : State, t.req.x = y →
      exec .i2b t = .next { t with done := t.done ++ [⟨t.req, .okBuffer bo⟩] })) ∧
  (∀ s : State, ∃ w y, exec .b2w s = .next { s with done := s.done ++ [⟨s.req, .okWire w⟩] } ∧
    exec .b2i s = .next { s with done := s.done ++ [⟨s.req, .okInteger y⟩] } ∧
    (∀ t : State, t.req.wi = w →
      exec .w2i t = .next { t with done := t.done ++ [⟨t.req, .okInteger y⟩] }) ∧
    (∀ t : State, t.req.x = y →
      exec .i2w t = .next { t with done := t.done ++ [⟨t.req, .okWire w⟩] })) ∧
  (∀ (i : Instr) (s : State), exec i s = .next { s with done := s.done ++ [⟨s.req, .overflow⟩] } →
    i.reads = [.x] ∧ ¬ (-2 ^ 127 ≤ s.req.x ∧ s.req.x ≤ 2 ^ 127 - 1))

/-- R109: the wire value is the floor division of the integer by 2^64, the unique such pair; `hi = -1` means a value
in `[-2^64, -1]`. -/
def Obligations.WireValueIsFloorDivision : Prop :=
  ∀ s : State, (-2 ^ 127 ≤ s.req.x ∧ s.req.x ≤ 2 ^ 127 - 1) →
    ∃ w : WireValue,
      exec .i2w s = .next { s with done := s.done ++ [⟨s.req, .okWire w⟩] } ∧
      exec .i2wm s = .next { s with done := s.done ++ [⟨s.req, .okWire w⟩] } ∧
      hiWord w = Int.fdiv s.req.x (2 ^ 64) ∧ (loWord w : Int) = Int.fmod s.req.x (2 ^ 64) ∧
      s.req.x = hiWord w * 2 ^ 64 + loWord w ∧ loWord w < 2 ^ 64 ∧
      -2 ^ 63 ≤ hiWord w ∧ hiWord w ≤ 2 ^ 63 - 1 ∧
      (∀ h l : Int, s.req.x = h * 2 ^ 64 + l → 0 ≤ l → l < 2 ^ 64 → h = hiWord w ∧ l = loWord w) ∧
      (hiWord w = -1 ↔ -2 ^ 64 ≤ s.req.x ∧ s.req.x ≤ -1)

/-! ### Data formats and arithmetic -/

/-- R6: the equivalent forms of the range check: the bounds, the fixed point of the 128-bit sign extension, the
shift by 127, and the equality of the upper bits of a port of every permitted width. -/
def Obligations.RangeCheckForms : Prop :=
  ∀ v : Int,
    (inRange v = true ↔ -2 ^ 127 ≤ v ∧ v ≤ 2 ^ 127 - 1) ∧
    (inRange v = true ↔ sext 128 v = v) ∧
    (inRange v = true ↔ asr v 127 = 0 ∨ asr v 127 = -1) ∧
    (∀ (xw : Nat) (p : BitVec xw), 129 ≤ xw → integerOfPort p = v →
      (inRange v = true ↔ ∀ j, 127 ≤ j → j < xw → p.getLsbD j = p.getLsbD 127) ∧
      (inRange v = true ↔ signBitsAgree p = true))

/-- R7: the N-bit two's-complement pattern of an integer, the complement of the magnitude plus one for a negative
one, bit N-1 the sign. -/
def Obligations.TwosComplementPattern : Prop :=
  ∀ (n : Nat) (v : Int), 1 ≤ n → -2 ^ (n - 1) ≤ v → v ≤ 2 ^ (n - 1) - 1 →
    zext n v < 2 ^ n ∧ signed n (zext n v) = v ∧
    (v < 0 → (zext n v : Int) = 2 ^ n - v.natAbs ∧
      BitVec.ofNat n (zext n v) = ~~~ (BitVec.ofNat n v.natAbs) + 1#n) ∧
    (Nat.testBit (zext n v) (n - 1) = true ↔ v < 0)

/-- R29: the byte, quarter, half, word and whole-buffer views of one buffer agree, byte `i` being the field of `U(B)`
that R19 gives. -/
def Obligations.MixedWidthViewsAgree : Prop :=
  (∀ b : Buffer,
    (∀ (i : Nat) (h : i < 16), memRead b i 1 = b[i].toNat ∧
      b[i].toNat = bits (bufferValue b) (8 * (15 - i) + 7) (8 * (15 - i))) ∧
    memRead b 0 16 = bufferValue b ∧
    memRead b 0 8 = bits (bufferValue b) 127 64 ∧ memRead b 0 8 = zext 64 (hiWord (wireOfBuffer b)) ∧
    memRead b 8 8 = bits (bufferValue b) 63 0 ∧ memRead b 8 8 = loWord (wireOfBuffer b) ∧
    (∀ k, k < 4 → memRead b (4 * k) 4 = bits (bufferValue b) (127 - 32 * k) (96 - 32 * k))) ∧
  memRead (bufferOfPort 0x0123456789ABCDEFFEDCBA9876543210#128) 4 4 = 0x89ABCDEF ∧
  memRead (bufferOfPort 0x0123456789ABCDEFFEDCBA9876543210#128) 8 8 = 0xFEDCBA9876543210

/-- R34: the format of the buffer ports, in and out. -/
def Obligations.BufferPortFormat : Prop :=
  (∀ p : BitVec 128,
    (∀ (i : Nat) (h : i < 16), (bufferOfPort p)[i].toNat = bits p.toNat (127 - 8 * i) (120 - 8 * i)) ∧
    bufferValue (bufferOfPort p) = p.toNat ∧ p.getLsbD 127 = (bufferOfPort p)[0].getLsbD 7 ∧
    portOfBuffer (bufferOfPort p) = p) ∧
  (∀ b : Buffer,
    (∀ (i : Nat) (h : i < 16), b[i].toNat = bits (portOfBuffer b).toNat (127 - 8 * i) (120 - 8 * i)) ∧
    (portOfBuffer b).toNat = bufferValue b ∧ (portOfBuffer b).getLsbD 127 = b[0].getLsbD 7)

/-- The big-endian value of the buffer as a sum, and its reading (R19). -/
def Obligations.BufferIsBigEndian : Prop :=
  ∀ b : Buffer,
    bufferValue b = ∑ i : Fin 16, b[i.val].toNat * 2 ^ (8 * (15 - i.val)) ∧
    integerOfBuffer b = signed 128 (bufferValue b)

/-- R42: the byte-run helper, both branches, its ranges and the examples of the rule. -/
def Obligations.ByteRunHelper : Prop :=
  (∀ (b0 : Byte) (rest : List Byte),
    chunk false b0 rest = (be (b0 :: rest) : Int) ∧
    0 ≤ chunk false b0 rest ∧ chunk false b0 rest < 256 ^ (rest.length + 1) ∧
    (b0.getLsbD 7 = false → chunk true b0 rest = (be (b0 :: rest) : Int)) ∧
    (b0.getLsbD 7 = true →
      chunk true b0 rest = -((b0.toNat - 128) * 256 ^ rest.length + be rest : Nat) ∧ 128 ≤ b0.toNat) ∧
    -(2 ^ (8 * (rest.length + 1) - 1) - 1) ≤ chunk true b0 rest ∧
    chunk true b0 rest ≤ 2 ^ (8 * (rest.length + 1) - 1) - 1) ∧
  (∀ m : Nat, chunk true 0x80#8 (List.replicate m 0#8) = 0) ∧
  chunk true 0xFF#8 [0xFF#8, 0xFF#8, 0xFF#8] = -2147483647 ∧ sext 32 0xFFFFFFFF = -1 ∧
  chunk false 0x12#8 [0x34#8, 0x56#8, 0x78#8] = 305419896 ∧
  chunk false 0x80#8 [0#8, 0#8, 0#8] = 2147483648 ∧ chunk true 0x80#8 [0#8, 0#8, 1#8] = -1

/-- The use of the helper in the block: on a quarter, signed flag off, it is the unsigned read of that quarter
(R43). -/
def Obligations.QuarterReadIsUnsigned : Prop :=
  ∀ (b : Buffer) (k : Fin 4),
    quarterChunk b k = (memRead b (4 * k.val) 4 : Nat) ∧ 0 ≤ quarterChunk b k ∧ quarterChunk b k < 2 ^ 32

/-- R41: the I2B result built from the magnitude: for a non-negative integer the minimal big-endian sequence,
left-padded with zero bytes; for a negative one the complement of the bytes of the magnitude less one. -/
def Obligations.BufferFromMagnitude : Prop :=
  (∀ s : State, (-2 ^ 127 ≤ s.req.x ∧ s.req.x ≤ 2 ^ 127 - 1) →
    ∃ bo : BitVec 128, exec .i2b s = .next { s with done := s.done ++ [⟨s.req, .okBuffer bo⟩] } ∧
      (let m := s.req.x.natAbs
       (0 ≤ s.req.x → (minimalBytes m).length ≤ 16 ∧
         (bufferOfPort bo).toList = List.replicate (16 - (minimalBytes m).length) 0#8 ++ minimalBytes m) ∧
       (s.req.x < 0 →
         (∀ (i : Nat) (h : i < 16), (bufferOfPort bo)[i].toNat = 255 - (byteOf 16 (m - 1) i).toNat) ∧
         bo = ~~~ (BitVec.ofNat 128 (m - 1)) ∧ bo = ~~~ (BitVec.ofNat 128 m) + 1#128 ∧
         (s.req.x ≠ -2 ^ 127 → s.req.x ≠ -2 ^ 126 → legacyBytes s.req.x ≠ some (bufferOfPort bo).toList)))) ∧
  (∀ m : Nat, be (minimalBytes m) = m ∧
    ∀ l : List Byte, l ≠ [] → be l = m → (minimalBytes m).length ≤ l.length) ∧
  minimalBytes 0 = [0#8]

/-- R49: what the formula of the mask path gives for every integer, the wire value of `sext_128(v)`, with the
literals of the rule; and that the block never returns it out of range. -/
def Obligations.UnguardedMaskFormulaWraps : Prop :=
  (∀ v : Int,
    (loWord (wireByMask v) : Int) = v % 2 ^ 64 ∧
    hiWord (wireByMask v) = signed 64 (Int.fdiv v (2 ^ 64) % 2 ^ 64).toNat ∧
    integerOfWire (wireByMask v) = sext 128 v) ∧
  (hiWord (wireByMask (2 ^ 127)) = -2 ^ 63 ∧ loWord (wireByMask (2 ^ 127)) = 0) ∧
  (hiWord (wireByMask (-2 ^ 127 - 1)) = 2 ^ 63 - 1 ∧ loWord (wireByMask (-2 ^ 127 - 1)) = 2 ^ 64 - 1) ∧
  (hiWord (wireByMask (2 ^ 128 - 1)) = -1 ∧ loWord (wireByMask (2 ^ 128 - 1)) = 2 ^ 64 - 1) ∧
  (hiWord (wireByMask (2 ^ 128)) = 0 ∧ loWord (wireByMask (2 ^ 128)) = 0) ∧
  (∀ s : State, ¬ (-2 ^ 127 ≤ s.req.x ∧ s.req.x ≤ 2 ^ 127 - 1) →
    exec .i2wm s = .next { s with done := s.done ++ [⟨s.req, .overflow⟩] })

/-- R35: words and sub-words: the ranges of `hi` and `lo`, that splitting undoes assembling and assembling undoes
splitting, and that the sign of the whole value is bit 31 of `HI_W1`. -/
def Obligations.WordAssembly : Prop :=
  (∀ w : WireValue,
    hiPattern w = w.hiW1.toNat * 2 ^ 32 + w.hiW0.toNat ∧ hiPattern w < 2 ^ 64 ∧
    hiWord w = signed 64 (hiPattern w) ∧ -2 ^ 63 ≤ hiWord w ∧ hiWord w ≤ 2 ^ 63 - 1 ∧
    loWord w = w.loW1.toNat * 2 ^ 32 + w.loW0.toNat ∧ loWord w < 2 ^ 64 ∧
    w.hiW1.toNat = bits (zext 64 (hiWord w)) 63 32 ∧ w.hiW0.toNat = bits (zext 64 (hiWord w)) 31 0 ∧
    w.loW1.toNat = bits (loWord w) 63 32 ∧ w.loW0.toNat = bits (loWord w) 31 0 ∧
    wireOfWords (zext 64 (hiWord w)) (loWord w) = w ∧
    (hiWord w * 2 ^ 64 + loWord w < 0 ↔ w.hiW1.getLsbD 31 = true)) ∧
  (∀ hiU lo : Nat, hiU < 2 ^ 64 → lo < 2 ^ 64 →
    hiPattern (wireOfWords hiU lo) = hiU ∧ loWord (wireOfWords hiU lo) = lo)

/-- R33: the integer ports of every permitted width: what a pattern presents, and how an in-range result is driven,
its bits from 127 up all equal to its sign. -/
def Obligations.IntegerPortFormat : Prop :=
  ∀ xw : Nat, 129 ≤ xw →
    (∀ (p : BitVec xw) (r : Request), integerOfPort p = p.toInt ∧ portOfInteger xw (integerOfPort p) = p ∧
      (requestOnPort r p).x = integerOfPort p) ∧
    (∀ r : Int, -2 ^ 127 ≤ r → r ≤ 2 ^ 127 - 1 →
      (portOfInteger xw r).toNat = zext xw r ∧ integerOfPort (portOfInteger xw r) = r ∧
      (∀ j, 127 ≤ j → j < xw → (portOfInteger xw r).getLsbD j = decide (r < 0)))

/-- 129 is the least width of the integer port that can present both out-of-range literals of the source (R5,
decision D3). -/
def Obligations.LeastIntegerPortWidth : Prop :=
  ∀ xw : Nat,
    ((∃ p : BitVec xw, integerOfPort p = 2 ^ 127) ∧ (∃ p : BitVec xw, integerOfPort p = -2 ^ 127 - 1)) ↔
      widthWf xw = true

/-- The arithmetic primitives of R110: the shift rounds toward minus infinity, the masks are non-negative, the
disjoint `|` is a sum. -/
def Obligations.ArithmeticPrimitives : Prop :=
  (∀ (v : Int) (n : Nat), asr v n * 2 ^ n ≤ v ∧ v < (asr v n + 1) * 2 ^ n) ∧
  (∀ (v : Int) (n : Nat), zext n v < 2 ^ n ∧ ((v - zext n v) % 2 ^ n = 0)) ∧
  (∀ (h l : Nat), l < 2 ^ 64 → (h * 2 ^ 64) ||| l = h * 2 ^ 64 + l) ∧
  (∀ u : Nat, u < 2 ^ 64 → signed 64 u = (if u < 2 ^ 63 then (u : Int) else (u : Int) - 2 ^ 64) ∧
    zext 64 (signed 64 u) = u) ∧
  (∀ u : Nat, u < 2 ^ 128 → signed 128 u = (if u < 2 ^ 127 then (u : Int) else (u : Int) - 2 ^ 128) ∧
    zext 128 (signed 128 u) = u) ∧
  asr (-1) 64 = -1 ∧ asr (-2 ^ 64) 64 = -1 ∧ asr (-2 ^ 64 - 1) 64 = -2 ∧ asr (2 ^ 64 - 1) 64 = 0 ∧
  asr 0 64 = 0 ∧ zext 64 (-1) = 2 ^ 64 - 1 ∧ zext 64 0 = 0 ∧ signed 64 (2 ^ 63) = -2 ^ 63 ∧
  signed 64 (2 ^ 64 - 1) = -1

/-- A write to the buffer is read back by a read of the same place and seen by no read of another place; the buffer
is all the byte-addressed storage there is (R18, R25). -/
def Obligations.BufferReadAfterWrite : Prop :=
  ∀ (b : Buffer) (i n u : Nat), i + n ≤ 16 → u < 256 ^ n →
    memRead (memWrite b i n u) i n = u ∧
    (∀ (j : Nat) (h : j < 16), (j < i ∨ i + n ≤ j) → (memWrite b i n u)[j] = b[j]) ∧
    (∀ (j : Nat) (h : j < 16), i ≤ j → j < i + n → (memWrite b i n u)[j] = byteOf n u (j - i))

/-- What a call's working buffer held before the call is never seen: I2B, I2W and W2B give the same result for
every content of it (R18, R67). The content is a free value of the model (log entry 6). -/
def Obligations.WorkingBufferIsNeverSeen : Prop :=
  (∀ (b b' : Buffer) (v : Int), bufferOfInteger b v = bufferOfInteger b' v) ∧
  (∀ (b b' : Buffer) (w : WireValue), bufferOfWire b w = bufferOfWire b' w)

/-! ### Runs -/

/-- The invariant of a run holds at reset: no transaction has been answered. The run's record is the model's own
field. -/
def Obligations.ContractsHonouredAtReset : Prop := HonouredRun State.reset

/-- Every step keeps the invariant of a run: every transaction answered so far had a legal code and got what its
operation's contract owes its caller, said by the two's-complement reading of a bit vector alone. -/
def Obligations.StepKeepsContractsHonoured : Prop :=
  ∀ s t : State, HonouredRun s → step s = .next t → HonouredRun t

/-- In a run that honours its contracts, two transactions with equal requests got equal responses. -/
def Obligations.HonouredAnswersAreUnique : Prop :=
  ∀ (s : State) (a b : Transaction), HonouredRun s → a ∈ s.done → b ∈ s.done → a.request = b.request →
    a.response = b.response

/-- A legal run answers every transaction presented, each with the response its own request gets alone, and then is
over; a run that contains a refused transaction has no result (70_reset_and_hazards.md section 5). That the answers
stand in the order of the requests, one step each, is the model's reading (log entry 7, DEDUCED): the spec does not fix
the order in which responses return. -/
def Obligations.RunAnswersEachTransactionAsIfAlone : Prop :=
  ∀ s : State,
    (LegalRun s → ∃ (t : State) (l : List Transaction),
      Host.Core.run Sys2Proof.core s.requests.length s = .next t ∧ t.requests = [] ∧ t.done = s.done ++ l ∧
      l.map (fun d => (d.request, some d.response)) = s.requests.map (fun r => (r, respond r))) ∧
    (¬ LegalRun s → Host.Core.run Sys2Proof.core s.requests.length s = .refused .reservedOp)

/-- Transactions may be presented in any order: two legal runs of the same transactions in different orders give the
same transactions with the same responses (R26). A run serves them one at a time (log entry 7). -/
def Obligations.OrderOfTransactionsDoesNotMatter : Prop :=
  ∀ s s' : State, LegalRun s → s.done = [] → s'.done = [] → s.requests.Perm s'.requests →
    ∃ t t' : State, Host.Core.run Sys2Proof.core s.requests.length s = .next t ∧
      Host.Core.run Sys2Proof.core s'.requests.length s' = .next t' ∧ t.done.Perm t'.done

/-- Presenting the same request again gives the same response, Overflow included (R25, R64). -/
def Obligations.RetryRepeatsTheResponse : Prop :=
  ∀ (s : State) (r : Request) (rest : List Request), s.requests = r :: r :: rest → r.op ≠ 0#3 →
    ∃ rsp, Host.Core.run Sys2Proof.core 2 s =
      .next { req := r, requests := rest, done := s.done ++ [⟨r, rsp⟩, ⟨r, rsp⟩] }

/-- The hazard of R79: the legacy procedure makes the block's buffer for an in-range integer exactly when it is
non-negative, `-2^127` or `-2^126`; it reports overflow only for magnitudes of 17 bytes; and its buffer for -1 is
read by B2I as `-2^127 + 1`. -/
def Obligations.LegacyEncoderAgreesExactly : Prop :=
  (∀ s : State, (-2 ^ 127 ≤ s.req.x ∧ s.req.x ≤ 2 ^ 127 - 1) →
    ∃ bo, exec .i2b s = .next { s with done := s.done ++ [⟨s.req, .okBuffer bo⟩] } ∧
      (legacyBytes s.req.x = some (bufferOfPort bo).toList ↔
        0 ≤ s.req.x ∨ s.req.x = -2 ^ 127 ∨ s.req.x = -2 ^ 126)) ∧
  (∀ v : Int, legacyBytes v = none ↔ 2 ^ 128 ≤ v.natAbs) ∧
  (∀ (s : State) (l : List Byte), legacyBytes (-1) = some l → s.req.bi = portOfBuffer (bufferOfBytes l) →
    exec .b2i s = .next { s with done := s.done ++ [⟨s.req, .okInteger (-2 ^ 127 + 1)⟩] })
end

