-- ==== Sys2Proof/Laws/Arith.lean ====
section
/-!
SUPPORT. Laws of the arithmetic vocabulary: big-endian runs of bytes, and the link of `zext`, `signed` and `sext` to
Lean's two's-complement bit vectors.
-/

namespace Sys2Proof.Machine

/-! ### Runs of bytes -/

@[simp] theorem be_nil : be [] = 0 := rfl

@[simp] theorem be_cons (b : Byte) (bs : List Byte) : be (b :: bs) = b.toNat * 256 ^ bs.length + be bs := rfl

theorem be_lt (l : List Byte) : be l < 256 ^ l.length := by
  induction l with
  | nil => simp
  | cons b bs ih =>
    have hb : b.toNat + 1 ≤ 256 := b.isLt
    calc be (b :: bs) < b.toNat * 256 ^ bs.length + 256 ^ bs.length := by simpa using ih
      _ = (b.toNat + 1) * 256 ^ bs.length := by ring
      _ ≤ 256 * 256 ^ bs.length := Nat.mul_le_mul_right _ hb
      _ = 256 ^ (b :: bs).length := by simp [pow_succ, mul_comm]

theorem be_append (l m : List Byte) : be (l ++ m) = be l * 256 ^ m.length + be m := by
  induction l with
  | nil => simp
  | cons b bs ih => simp [ih, pow_add]; ring

@[simp] theorem length_bytesBe (n u : Nat) : (bytesBe n u).length = n := by simp [bytesBe]

theorem byteOf_toNat (n u i : Nat) : (byteOf n u i).toNat = u / 256 ^ (n - 1 - i) % 256 := by
  have h : 8 * (n - 1 - i) + 7 - 8 * (n - 1 - i) + 1 = 8 := by omega
  have h8 : (2 : Nat) ^ 8 = 256 := by norm_num
  simp only [byteOf, bits, h, BitVec.toNat_ofNat, Nat.mod_mod, pow_mul, h8]

theorem byteOf_succ (n u i : Nat) : byteOf (n + 1) u (i + 1) = byteOf n u i := by
  apply BitVec.eq_of_toNat_eq
  rw [byteOf_toNat, byteOf_toNat]
  congr 3
  omega

theorem bytesBe_succ (n u : Nat) : bytesBe (n + 1) u = byteOf (n + 1) u 0 :: bytesBe n u := by
  simp [bytesBe, List.range_succ_eq_map, Function.comp_def, byteOf_succ]

theorem be_bytesBe (n u : Nat) : be (bytesBe n u) = u % 256 ^ n := by
  induction n with
  | zero => simp [bytesBe, Nat.mod_one]
  | succ n ih =>
    rw [bytesBe_succ, be_cons, length_bytesBe, ih, byteOf_toNat, Nat.pow_succ, Nat.mod_mul]
    simp [mul_comm, add_comm]

theorem bytesBe_mod (n u : Nat) : bytesBe n (u % 256 ^ n) = bytesBe n u := by
  apply List.map_congr_left
  intro i hi
  apply BitVec.eq_of_toNat_eq
  rw [byteOf_toNat, byteOf_toNat]
  have hi : i < n := by simpa using hi
  have hn : n = (n - 1 - i) + (i + 1) := by omega
  generalize hk : n - 1 - i = k at hn
  rw [hn, pow_add, Nat.mod_mul_right_div_self, pow_succ]
  exact Nat.mod_mod_of_dvd _ (Dvd.intro_left _ rfl)

theorem bytesBe_be (l : List Byte) : bytesBe l.length (be l) = l := by
  induction l with
  | nil => rfl
  | cons b bs ih =>
    have hlt := be_lt bs
    have hpos : 0 < 256 ^ bs.length := Nat.pow_pos (by norm_num)
    rw [List.length_cons, bytesBe_succ]
    congr 1
    · apply BitVec.eq_of_toNat_eq
      have hb : b.toNat < 256 := b.isLt
      rw [byteOf_toNat, be_cons, Nat.add_sub_cancel, Nat.sub_zero, Nat.add_comm,
        Nat.add_mul_div_right _ _ hpos, Nat.div_eq_of_lt hlt, Nat.zero_add, Nat.mod_eq_of_lt hb]
    · rw [← bytesBe_mod, be_cons, Nat.add_comm, Nat.add_mul_mod_self_right, Nat.mod_eq_of_lt hlt, ih]

theorem drop_bytesBe (m i u : Nat) (h : i ≤ m) : (bytesBe m u).drop i = bytesBe (m - i) u := by
  induction i with
  | zero => simp
  | succ i ih =>
    have hm : m - i = (m - (i + 1)) + 1 := by omega
    rw [← List.drop_drop, ih (by omega), hm, bytesBe_succ]
    simp

theorem take_bytesBe (m n u : Nat) (h : n ≤ m) : (bytesBe m u).take n = bytesBe n (u / 256 ^ (m - n)) := by
  simp only [bytesBe, ← List.map_take, List.take_range, Nat.min_eq_left h]
  apply List.map_congr_left
  intro i hi
  have hi : i < n := by simpa using hi
  apply BitVec.eq_of_toNat_eq
  rw [byteOf_toNat, byteOf_toNat, Nat.div_div_eq_div_mul, ← pow_add]
  congr 3
  omega

/-- Reading `n` bytes from index `i` of the run of `m` bytes that spells `u`. -/
theorem be_take_drop_bytesBe (m i n u : Nat) (h : i + n ≤ m) :
    be (((bytesBe m u).drop i).take n) = u / 256 ^ (m - i - n) % 256 ^ n := by
  rw [drop_bytesBe m i u (by omega), take_bytesBe _ _ _ (by omega), be_bytesBe]

/-! ### Extensions and two's complement -/

theorem zext_eq_toNat_ofInt (n : Nat) (v : Int) : zext n v = (BitVec.ofInt n v).toNat := by
  simp [zext, BitVec.toNat_ofInt]

theorem ofNat_zext (n : Nat) (v : Int) : BitVec.ofNat n (zext n v) = BitVec.ofInt n v := by
  rw [zext_eq_toNat_ofInt, BitVec.ofNat_toNat, BitVec.setWidth_eq]

theorem zext_lt (n : Nat) (v : Int) : zext n v < 2 ^ n := by
  rw [zext_eq_toNat_ofInt]
  exact BitVec.isLt _

theorem signed_toNat {n : Nat} (hn : 0 < n) (p : BitVec n) : signed n p.toNat = p.toInt := by
  obtain ⟨m, rfl⟩ : ∃ m, n = m + 1 := ⟨n - 1, by omega⟩
  rw [BitVec.toInt_eq_toNat_cond, signed, Nat.add_sub_cancel]
  have : (2 * p.toNat < 2 ^ (m + 1)) ↔ p.toNat < 2 ^ m := by rw [pow_succ]; omega
  simp [this]

theorem sext_eq_toInt_ofInt {n : Nat} (hn : 0 < n) (v : Int) : sext n v = (BitVec.ofInt n v).toInt := by
  rw [sext, zext_eq_toNat_ofInt, signed_toNat hn]

theorem zext_toInt {n : Nat} (p : BitVec n) : zext n p.toInt = p.toNat := by
  rw [zext_eq_toNat_ofInt, BitVec.ofInt_toInt]

/-! ### The range -/

theorem inRange_iff (v : Int) : inRange v = true ↔ -2 ^ 127 ≤ v ∧ v ≤ 2 ^ 127 - 1 := by
  exact decide_eq_true_iff (p := -2 ^ 127 ≤ v ∧ v ≤ 2 ^ 127 - 1)

@[simp] theorem maskRaises_eq (v : Int) : maskRaises v = !inRange v := by
  simp [maskRaises, Config.maskChecksRange]

theorem widthWf_iff (xw : Nat) : widthWf xw = true ↔ 129 ≤ xw := decide_eq_true_iff (p := 129 ≤ xw)

theorem inRange_toInt (p : BitVec 128) : inRange p.toInt = true := by
  rw [inRange_iff]
  have h1 := BitVec.le_toInt p
  have h2 := BitVec.toInt_lt (x := p)
  norm_num at h1 h2 ⊢
  omega

theorem toInt_ofInt_of_inRange {v : Int} (h : inRange v = true) : (BitVec.ofInt 128 v).toInt = v := by
  rw [inRange_iff] at h
  exact BitVec.toInt_ofInt_eq_self (by norm_num) (by norm_num; omega) (by norm_num; omega)

end Sys2Proof.Machine
end

