-- ==== Sys2Proof/Laws/Memory.lean ====
section
/-!
SUPPORT. Laws of the buffer: its port form, what a read gives, what a write changes and what it leaves alone.
-/

namespace Sys2Proof.Machine

/-! ### Ports -/

theorem toList_bufferOfPort (p : BufferPort) : (bufferOfPort p).toList = bytesBe 16 p.toNat := by
  apply List.ext_getElem
  · simp
  intro i h1 h2
  have hi : i < 16 := by simpa using h2
  apply BitVec.eq_of_toNat_eq
  simp only [bufferOfPort, bytesBe, Vector.getElem_toList, Vector.getElem_ofFn, List.getElem_map,
    List.getElem_range, byteOf_toNat, BitVec.extractLsb'_toNat, Nat.shiftRight_eq_div_pow]
  have h : 120 - 8 * i = 8 * (16 - 1 - i) := by omega
  rw [h, pow_mul]
  norm_num

theorem bufferValue_bufferOfPort (p : BufferPort) : bufferValue (bufferOfPort p) = p.toNat := by
  rw [bufferValue, toList_bufferOfPort, be_bytesBe, Nat.mod_eq_of_lt]
  have := p.isLt
  norm_num at this ⊢
  exact this

theorem bufferValue_lt (b : Buffer) : bufferValue b < 2 ^ 128 := by
  have := be_lt b.toList
  rw [Vector.length_toList] at this
  norm_num at this ⊢
  exact this

@[simp] theorem portOfBuffer_bufferOfPort (p : BufferPort) : portOfBuffer (bufferOfPort p) = p := by
  rw [portOfBuffer, bufferValue_bufferOfPort, BitVec.ofNat_toNat, BitVec.setWidth_eq]

theorem toNat_portOfBuffer (b : Buffer) : (portOfBuffer b).toNat = bufferValue b := by
  rw [portOfBuffer, BitVec.toNat_ofNat, Nat.mod_eq_of_lt (bufferValue_lt b)]

@[simp] theorem bufferOfPort_portOfBuffer (b : Buffer) : bufferOfPort (portOfBuffer b) = b := by
  apply Vector.toList_inj.mp
  rw [toList_bufferOfPort, toNat_portOfBuffer, bufferValue]
  have := bytesBe_be b.toList
  rwa [Vector.length_toList] at this

/-! ### Reads -/

theorem memRead_eq (b : Buffer) (i n : Nat) (h : i + n ≤ 16) :
    memRead b i n = bufferValue b / 256 ^ (16 - i - n) % 256 ^ n := by
  have hb := bytesBe_be b.toList
  rw [Vector.length_toList] at hb
  rw [memRead, ← hb, be_take_drop_bytesBe 16 i n _ h, bufferValue]

theorem memRead_lt (b : Buffer) (i n : Nat) : memRead b i n < 256 ^ n := by
  refine lt_of_lt_of_le (be_lt _) (Nat.pow_le_pow_right (by norm_num) ?_)
  simp

theorem memRead_whole (b : Buffer) : memRead b 0 16 = bufferValue b := by
  rw [memRead_eq b 0 16 (by norm_num)]
  have := bufferValue_lt b
  norm_num at this ⊢
  exact this

/-- With the signed flag off the helper is the big-endian value of the run (R42). -/
theorem chunk_unsigned (b0 : Byte) (rest : List Byte) : chunk false b0 rest = (be (b0 :: rest) : Int) := rfl

theorem quarterChunk_eq_memRead (b : Buffer) (k : Fin 4) :
    quarterChunk b k = memRead b (4 * k.val) 4 := by
  have hlen : b.toList.length = 16 := Vector.length_toList
  have hk := k.isLt
  have htake : (b.toList.drop (4 * k.val)).take 4 =
      [b[4 * k.val], b[4 * k.val + 1], b[4 * k.val + 2], b[4 * k.val + 3]] := by
    apply List.ext_getElem
    · simp; omega
    intro i h1 h2
    simp only [List.length_cons, List.length_nil] at h2
    have : i = 0 ∨ i = 1 ∨ i = 2 ∨ i = 3 := by omega
    rcases this with rfl | rfl | rfl | rfl <;> simp
  simp only [quarterChunk, chunk, Bool.false_and, memRead, htake]
  rfl

/-! ### Writes -/

theorem getElem_memWrite (b : Buffer) (i n u j : Nat) (hj : j < 16) :
    (memWrite b i n u)[j] = if i ≤ j ∧ j < i + n then byteOf n u (j - i) else b[j] := by
  simp [memWrite]

/-- A write leaves every byte outside its range alone. -/
theorem getElem_memWrite_other (b : Buffer) (i n u j : Nat) (hj : j < 16) (h : j < i ∨ i + n ≤ j) :
    (memWrite b i n u)[j] = b[j] := by
  rw [getElem_memWrite, if_neg (by omega)]

/-- A read after a write to the same place gives the value written. -/
theorem memRead_memWrite_same (b : Buffer) (i n u : Nat) (h : i + n ≤ 16) (hu : u < 256 ^ n) :
    memRead (memWrite b i n u) i n = u := by
  have hrun : ((memWrite b i n u).toList.drop i).take n = bytesBe n u := by
    apply List.ext_getElem
    · simp; omega
    intro j h1 h2
    have hj : j < n := by simpa using h2
    simp only [List.getElem_take, List.getElem_drop, Vector.getElem_toList]
    rw [getElem_memWrite _ _ _ _ _ (by omega), if_pos (by omega), Nat.add_sub_cancel_left]
    simp [bytesBe]
  rw [memRead, hrun, be_bytesBe, Nat.mod_eq_of_lt hu]

/-- A read of a range a write does not touch is unchanged. -/
theorem memRead_memWrite_other (b : Buffer) (i n u j k : Nat) (h : j + k ≤ i ∨ i + n ≤ j) :
    memRead (memWrite b i n u) j k = memRead b j k := by
  have hrun : ((memWrite b i n u).toList.drop j).take k = (b.toList.drop j).take k := by
    apply List.ext_getElem
    · simp
    intro m h1 h2
    have hm : m < k ∧ j + m < 16 := by
      simp only [List.length_take, List.length_drop, Vector.length_toList] at h2
      omega
    simp only [List.getElem_take, List.getElem_drop, Vector.getElem_toList]
    exact getElem_memWrite_other _ _ _ _ _ hm.2 (by omega)
  rw [memRead, memRead, hrun]

/-- Writing all 16 bytes leaves nothing of what the buffer held. -/
theorem toList_memWrite_whole (b : Buffer) (u : Nat) : (memWrite b 0 16 u).toList = bytesBe 16 u := by
  apply List.ext_getElem
  · simp
  intro j h1 h2
  have hj : j < 16 := by simpa using h2
  rw [Vector.getElem_toList, getElem_memWrite _ _ _ _ _ hj, if_pos (by omega)]
  simp [bytesBe]

/-- The whole buffer from its four quarters. -/
theorem bufferValue_quarters (b : Buffer) :
    bufferValue b = memRead b 0 4 * 2 ^ 96 + memRead b 4 4 * 2 ^ 64 + memRead b 8 4 * 2 ^ 32 + memRead b 12 4 := by
  have hlt := bufferValue_lt b
  rw [memRead_eq b 0 4 (by norm_num), memRead_eq b 4 4 (by norm_num), memRead_eq b 8 4 (by norm_num),
    memRead_eq b 12 4 (by norm_num)]
  norm_num at hlt ⊢
  omega

end Sys2Proof.Machine
end

