-- ==== Sys2Proof/Laws/State.lean ====
section
/-!
SUPPORT. What each update of the state does to each field, and what the state is after reset.
-/

namespace Sys2Proof.Machine

@[simp] theorem State.present_req (s : State) (r : Request) (l : List Request) : (s.present r l).req = r := rfl
@[simp] theorem State.present_requests (s : State) (r : Request) (l : List Request) :
    (s.present r l).requests = l := rfl
@[simp] theorem State.present_done (s : State) (r : Request) (l : List Request) :
    (s.present r l).done = s.done := rfl

@[simp] theorem State.answer_req (s : State) (rsp : Response) : (s.answer rsp).req = s.req := rfl
@[simp] theorem State.answer_requests (s : State) (rsp : Response) :
    (s.answer rsp).requests = s.requests := rfl
@[simp] theorem State.answer_done (s : State) (rsp : Response) :
    (s.answer rsp).done = s.done ++ [{ request := s.req, response := rsp }] := rfl

@[simp] theorem raiseOverflow_req (s : State) : (raiseOverflow s).req = s.req := rfl
@[simp] theorem raiseOverflow_requests (s : State) : (raiseOverflow s).requests = s.requests := rfl
@[simp] theorem raiseOverflow_done (s : State) :
    (raiseOverflow s).done = s.done ++ [{ request := s.req, response := .overflow }] := rfl

@[simp] theorem State.reset_requests : State.reset.requests = [] := rfl
@[simp] theorem State.reset_done : State.reset.done = [] := rfl

@[simp] theorem State.withFetchWord_req (s : State) (nbits w : Nat) :
    (s.withFetchWord nbits w).req = s.req := rfl
@[simp] theorem State.withFetchWord_done (s : State) (nbits w : Nat) :
    (s.withFetchWord nbits w).done = s.done := rfl
@[simp] theorem State.withFetchWord_requests (s : State) (nbits w : Nat) :
    (s.withFetchWord nbits w).requests = requestsWithOp s (opOfTableWord nbits w) := rfl

end Sys2Proof.Machine
end

