-- ==== Sys2Proof/Laws/Ops.lean ====
section
/-!
SUPPORT. What each shared operation does, said once: every conversion as a statement about the 128-bit pattern of
the value, and the step as one of three cases.
-/

namespace Sys2Proof.Machine

/-! ### Wire values and their pattern -/

theorem toNat_wirePattern (w : WireValue) :
    (wirePattern w).toNat = hiPattern w * 2 ^ 64 + loWord w := by
  have h1 := w.hiW1.isLt
  have h0 := w.hiW0.isLt
  have l1 := w.loW1.isLt
  have l0 := w.loW0.isLt
  simp only [wirePattern, BitVec.toNat_append, hiPattern, loWord]
  rw [← Nat.shiftLeft_add_eq_or_of_lt h0, ← Nat.shiftLeft_add_eq_or_of_lt l1,
    ← Nat.shiftLeft_add_eq_or_of_lt l0]
  simp only [Nat.shiftLeft_eq]
  ring

theorem hiPattern_lt (w : WireValue) : hiPattern w < 2 ^ 64 := by
  have h1 := w.hiW1.isLt
  have h0 := w.hiW0.isLt
  simp only [hiPattern]
  norm_num at h1 h0 ⊢
  omega

theorem loWord_lt (w : WireValue) : loWord w < 2 ^ 64 := by
  have h1 := w.loW1.isLt
  have h0 := w.loW0.isLt
  simp only [loWord]
  norm_num at h1 h0 ⊢
  omega

/-- A wire value is determined by its 128-bit pattern. -/
theorem wirePattern_injective {w w' : WireValue} (h : wirePattern w = wirePattern w') : w = w' := by
  have hn := congrArg BitVec.toNat h
  rw [toNat_wirePattern, toNat_wirePattern] at hn
  have a := w.hiW1.isLt
  have b := w.hiW0.isLt
  have c := w.loW1.isLt
  have d := w.loW0.isLt
  have a' := w'.hiW1.isLt
  have b' := w'.hiW0.isLt
  have c' := w'.loW1.isLt
  have d' := w'.loW0.isLt
  simp only [hiPattern, loWord] at hn
  norm_num at a b c d a' b' c' d' hn
  cases w
  cases w'
  simp only [WireValue.mk.injEq] at *
  refine ⟨?_, ?_, ?_, ?_⟩ <;> apply BitVec.eq_of_toNat_eq <;> omega

/-! ### The conversions -/

theorem portOfBuffer_bufferOfInteger (b : Buffer) (v : Int) :
    portOfBuffer (bufferOfInteger b v) = BitVec.ofInt 128 v := by
  rw [portOfBuffer, bufferValue, bufferOfInteger, toList_memWrite_whole, be_bytesBe, ← ofNat_zext]
  congr 1
  apply Nat.mod_eq_of_lt
  have := zext_lt 128 v
  norm_num at this ⊢
  exact this

theorem bufferOfInteger_eq (b : Buffer) (v : Int) :
    bufferOfInteger b v = bufferOfPort (BitVec.ofInt 128 v) := by
  rw [← portOfBuffer_bufferOfInteger b v, bufferOfPort_portOfBuffer]

theorem toNat_ofInt_quarterChunk (b : Buffer) (k : Fin 4) :
    (BitVec.ofInt 32 (quarterChunk b k)).toNat = memRead b (4 * k.val) 4 := by
  have := memRead_lt b (4 * k.val) 4
  rw [quarterChunk_eq_memRead, BitVec.toNat_ofInt]
  norm_num at this ⊢
  omega

/-- The sub-words of a buffer are its quarters, in the order Q1, Q0, Q3, Q2 (R22). -/
theorem wireOfBuffer_toNat (b : Buffer) :
    (wireOfBuffer b).hiW0.toNat = memRead b 4 4 ∧ (wireOfBuffer b).hiW1.toNat = memRead b 0 4 ∧
    (wireOfBuffer b).loW0.toNat = memRead b 12 4 ∧ (wireOfBuffer b).loW1.toNat = memRead b 8 4 :=
  ⟨toNat_ofInt_quarterChunk b 1, toNat_ofInt_quarterChunk b 0, toNat_ofInt_quarterChunk b 3,
    toNat_ofInt_quarterChunk b 2⟩

theorem wirePattern_wireOfBuffer (b : Buffer) : wirePattern (wireOfBuffer b) = portOfBuffer b := by
  obtain ⟨h0, h1, l0, l1⟩ := wireOfBuffer_toNat b
  apply BitVec.eq_of_toNat_eq
  rw [toNat_wirePattern, toNat_portOfBuffer, bufferValue_quarters, hiPattern, loWord, h0, h1, l0, l1]
  ring

/-- The four quarters of the buffer of a wire value (R51). -/
theorem memRead_bufferOfWire (b : Buffer) (w : WireValue) :
    memRead (bufferOfWire b w) 0 4 = w.hiW1.toNat ∧ memRead (bufferOfWire b w) 4 4 = w.hiW0.toNat ∧
    memRead (bufferOfWire b w) 8 4 = w.loW1.toNat ∧ memRead (bufferOfWire b w) 12 4 = w.loW0.toNat := by
  have h (x : SubWord) : x.toNat < 256 ^ 4 := by
    have := x.isLt
    norm_num at this ⊢
    exact this
  refine ⟨?_, ?_, ?_, ?_⟩
  · rw [bufferOfWire, memRead_memWrite_other _ _ _ _ _ _ (by omega), memRead_memWrite_other _ _ _ _ _ _ (by omega),
      memRead_memWrite_other _ _ _ _ _ _ (by omega), memRead_memWrite_same _ _ _ _ (by norm_num) (h _)]
  · rw [bufferOfWire, memRead_memWrite_other _ _ _ _ _ _ (by omega), memRead_memWrite_other _ _ _ _ _ _ (by omega),
      memRead_memWrite_same _ _ _ _ (by norm_num) (h _)]
  · rw [bufferOfWire, memRead_memWrite_other _ _ _ _ _ _ (by omega),
      memRead_memWrite_same _ _ _ _ (by norm_num) (h _)]
  · rw [bufferOfWire, memRead_memWrite_same _ _ _ _ (by norm_num) (h _)]

theorem portOfBuffer_bufferOfWire (b : Buffer) (w : WireValue) :
    portOfBuffer (bufferOfWire b w) = wirePattern w := by
  obtain ⟨h1, h0, l1, l0⟩ := memRead_bufferOfWire b w
  apply BitVec.eq_of_toNat_eq
  rw [toNat_wirePattern, toNat_portOfBuffer, bufferValue_quarters, hiPattern, loWord, h0, h1, l0, l1]
  ring

theorem hiPattern_wireOfWords {hiU lo : Nat} (h : hiU < 2 ^ 64) : hiPattern (wireOfWords hiU lo) = hiU := by
  simp only [hiPattern, wireOfWords, bits, BitVec.toNat_ofNat]
  norm_num at h ⊢
  omega

theorem loWord_wireOfWords {hiU lo : Nat} (h : lo < 2 ^ 64) : loWord (wireOfWords hiU lo) = lo := by
  simp only [loWord, wireOfWords, bits, BitVec.toNat_ofNat]
  norm_num at h ⊢
  omega

theorem wirePattern_wireByMask (v : Int) : wirePattern (wireByMask v) = BitVec.ofInt 128 v := by
  apply BitVec.eq_of_toNat_eq
  rw [toNat_wirePattern, wireByMask, hiPattern_wireOfWords (zext_lt _ _), loWord_wireOfWords (zext_lt _ _),
    ← zext_eq_toNat_ofInt]
  simp only [zext, asr]
  omega

theorem integerOfWire_eq (w : WireValue) : integerOfWire w = (wirePattern w).toInt := by
  have h := hiPattern_lt w
  have l := loWord_lt w
  have hs : sext 64 (hiPattern w) = signed 64 (hiPattern w) := by
    rw [sext, zext]
    congr 1
    norm_num at h ⊢
    omega
  rw [← signed_toNat (by norm_num), toNat_wirePattern, integerOfWire, hs]
  simp only [signed]
  norm_num at h l ⊢
  split <;> split <;> omega

theorem integerOfBuffer_eq (b : Buffer) : integerOfBuffer b = (portOfBuffer b).toInt := by
  rw [integerOfBuffer, memRead_whole, ← toNat_portOfBuffer, signed_toNat (by norm_num)]

/-! ### The step -/

theorem eq_reserved_of_decode_error {op : BitVec 3} {e : DecodeError} (h : decode op = .error e) :
    op = 0#3 := by
  cases e
  revert op
  decide

/-- What a step can do: idle, refuse the reserved code, or run the operation the next request selects. -/
theorem step_cases (s : State) :
    (s.requests = [] ∧ step s = .next s) ∨
    (∃ r rest, s.requests = r :: rest ∧ r.op = 0#3 ∧ step s = .refused .reservedOp) ∨
    (∃ r rest i, s.requests = r :: rest ∧ decode r.op = .ok i ∧ step s = exec i (s.present r rest)) := by
  cases hreq : s.requests with
  | nil => exact .inl ⟨rfl, by simp [step, nextRequest, hreq]⟩
  | cons r rest =>
    cases hdec : decode r.op with
    | error e =>
      refine .inr (.inl ⟨r, rest, rfl, eq_reserved_of_decode_error hdec, ?_⟩)
      cases e
      simp [step, nextRequest, hreq, hdec]
    | ok i => exact .inr (.inr ⟨r, rest, i, rfl, hdec, by simp [step, nextRequest, hreq, hdec]⟩)

/-- Every operation answers the transaction in hand, once, and changes nothing else of the state. -/
theorem exec_answers (i : Instr) (s : State) : ∃ rsp, exec i s = .next (s.answer rsp) := by
  cases i
  case i2b => by_cases h : inRange s.req.x <;> simp [exec, execI2B, raiseOverflow, h]
  case i2w => by_cases h : inRange s.req.x <;> simp [exec, execI2W, raiseOverflow, h]
  case i2wm => by_cases h : inRange s.req.x <;> simp [exec, execI2WM, raiseOverflow, h]
  all_goals exact ⟨_, rfl⟩

/-! ### Runs -/

@[simp] theorem run_zero (s : State) : Host.Core.run Sys2Proof.core 0 s = .next s := rfl

theorem core_run_succ_of_next {M : Host.Core} {s t : M.State} (k : Nat) (h : M.step s = .next t) :
    M.run (k + 1) s = M.run k t := by
  simp only [Host.Core.run, h]

theorem core_run_succ_of_refused {M : Host.Core} {s : M.State} {r : M.Refusal} (k : Nat)
    (h : M.step s = .refused r) : M.run (k + 1) s = .refused r := by
  simp only [Host.Core.run, h]

/-- A run goes on from the state a step answers. -/
theorem run_succ_of_next {s t : State} (k : Nat) (h : step s = .next t) :
    Host.Core.run Sys2Proof.core (k + 1) s = Host.Core.run Sys2Proof.core k t :=
  core_run_succ_of_next (M := Sys2Proof.core) k h

/-- A run stops where a step refuses. -/
theorem run_succ_of_refused {s : State} {r : Refusal} (k : Nat) (h : step s = .refused r) :
    Host.Core.run Sys2Proof.core (k + 1) s = .refused r :=
  core_run_succ_of_refused (M := Sys2Proof.core) k h

end Sys2Proof.Machine
end

