-- ==== Sys2Proof/Laws/PerInstr.lean ====
section
/-!
SUPPORT. Facts about each instruction as syntax, one lemma per constructor: the port table of 30_encoding.md R31 is
determined by the operand format, and only the integer format can overflow.
-/

namespace Sys2Proof.Laws.FormatPorts

/-- The operand ports of a format (R31). -/
def formatReads : Format → List InPort
  | .I => [.x]
  | .B => [.bi]
  | .W => [.wiHiW0, .wiHiW1, .wiLoW0, .wiLoW1]

/-- The row of R31 for an instruction: it is well formed, reads the ports of its format and can overflow
exactly when its operand is an integer. -/
def Statement (i : Instr) : Prop :=
  i.wf = true ∧ i.reads = formatReads i.format ∧ (i.canOverflow = true ↔ i.format = .I)

theorem i2b : Statement .i2b := by unfold Statement; decide
theorem b2w : Statement .b2w := by unfold Statement; decide
theorem i2w : Statement .i2w := by unfold Statement; decide
theorem i2wm : Statement .i2wm := by unfold Statement; decide
theorem w2i : Statement .w2i := by unfold Statement; decide
theorem w2b : Statement .w2b := by unfold Statement; decide
theorem b2i : Statement .b2i := by unfold Statement; decide

end Sys2Proof.Laws.FormatPorts
end

