-- ==== Sys2Proof/Machine/Listing.lean ====
section
/-!
DEFINITION. The listing syntax of 30_encoding.md R38: one transaction a line, `MNEMONIC operands -> results` or
`MNEMONIC operand -> OVERFLOW`. Nothing of the machine reads it; log entry 8 says which forms R38 leaves open.
-/

namespace Sys2Proof.Machine

/-- A hexadecimal digit, upper case. -/
def hexChar (d : Nat) : Char := Char.ofNat (if d < 10 then 48 + d else 55 + d)

/-- The `n` hexadecimal digits of `u`, most significant first. -/
def hexText (n u : Nat) : String :=
  String.ofList ((List.range n).map fun i => hexChar (u / 16 ^ (n - 1 - i) % 16))

/-- A buffer: 16 two-digit hexadecimal bytes, `B[0]` first, separated by spaces (R38). -/
def bufferText (b : Buffer) : String :=
  String.intercalate " " (b.toList.map fun x => hexText 2 x.toNat)

/-- A wire value: the four sub-words in the order of R31, 8-digit hexadecimal (R38). -/
def wireText (w : WireValue) : String :=
  "HI_W0=" ++ hexText 8 w.hiW0.toNat ++ ", HI_W1=" ++ hexText 8 w.hiW1.toNat ++
  ", LO_W0=" ++ hexText 8 w.loW0.toNat ++ ", LO_W1=" ++ hexText 8 w.loW1.toNat

/-- The operands of an operation, by its format (R31, R38); integers in decimal. -/
def operandText (i : Instr) (r : Request) : String :=
  match i.format with
  | .I => toString r.x
  | .B => bufferText (bufferOfPort r.bi)
  | .W => wireText r.wi

/-- The results of a response, or `OVERFLOW` (R38). -/
def responseText : Response → String
  | .okBuffer bo => bufferText (bufferOfPort bo)
  | .okWire wo => wireText wo
  | .okInteger y => toString y
  | .overflow => "OVERFLOW"

/-- The listing line of a transaction (R38). -/
def listingLine (i : Instr) (r : Request) (rsp : Response) : String :=
  i.mnemonic ++ " " ++ operandText i r ++ " -> " ++ responseText rsp

end Sys2Proof.Machine
end

