-- ==== Sys2Proof/Tests/Slice0.lean ====
section
/-!
SUPPORT. The model's own tests. Expected results are the source examples S1 to S8 of spec/95_test_vectors.md
section 1 and the derived vectors of its sections 2 to 8, named in each comment. The last part shows, for every
statement with hypotheses, a concrete case that meets them.
-/

namespace Sys2Proof.Tests

open Sys2Proof Sys2Proof.Machine

/-! ### Helpers -/

/-- A request with the code of `i` and idle operand ports. -/
def reqFor (i : Instr) : Request := { idleRequest with op := encode i }

/-- A state whose transaction in hand carries the integer `v`. -/
def onX (v : Int) : State := { State.reset with req := { idleRequest with x := v } }

/-- A state whose transaction in hand carries the buffer `p`. -/
def onB (p : BufferPort) : State := { State.reset with req := { idleRequest with bi := p } }

/-- A state whose transaction in hand carries a wire value. -/
def onW (hiW0 hiW1 loW0 loW1 : SubWord) : State :=
  { State.reset with req := { idleRequest with wi := ⟨hiW0, hiW1, loW0, loW1⟩ } }

/-- The response a step delivered last. -/
def answerOf : Host.Outcome State Fault Refusal → Option Response
  | .next s => s.done.getLast?.map (·.response)
  | _ => none

/-- Whether a step refused the reserved code. -/
def refusedReserved : Host.Outcome State Fault Refusal → Bool
  | .refused .reservedOp => true
  | _ => false

/-! ### Well-formedness: each check refuses an ill-formed term -/

theorem test_wf_refuses_reserved_op : opWf 0b000#3 = false := by decide

theorem test_wf_refuses_reserved_request : Request.wf idleRequest = false := by decide

theorem test_wf_accepts_legal_request : Request.wf (reqFor .i2w) = true := by decide

theorem test_wf_refuses_port_of_128_bits : widthWf 128 = false := by decide

theorem test_wf_accepts_port_of_129_bits : widthWf 129 = true := by decide

theorem test_wf_accepts_every_instr : ([.i2b, .b2w, .i2w, .i2wm, .w2i, .w2b, .b2i] : List Instr).all Instr.wf = true := by
  decide

/-! ### Decoding: each code written out bit by bit from R30 -/

theorem test_decode_000 : decode 0b000#3 = .error .reservedOp := by decide
theorem test_decode_001 : decode 0b001#3 = .ok .i2b := by decide
theorem test_decode_010 : decode 0b010#3 = .ok .b2w := by decide
theorem test_decode_011 : decode 0b011#3 = .ok .i2w := by decide
theorem test_decode_100 : decode 0b100#3 = .ok .i2wm := by decide
theorem test_decode_101 : decode 0b101#3 = .ok .w2i := by decide
theorem test_decode_110 : decode 0b110#3 = .ok .w2b := by decide
theorem test_decode_111 : decode 0b111#3 = .ok .b2i := by decide

/-- The "match" values of spec/opcode_table.json, one byte each. -/
theorem test_table_words : [0, 1, 2, 3, 4, 5, 6, 7].map (decodeTableWord 8) =
    [none, some .i2b, some .b2w, some .i2w, some .i2wm, some .w2i, some .w2b, some .b2i] := by decide

/-- The first step after reset runs the word put on `OP`: B2W, on the idle ports. -/
theorem test_first_step_runs_word :
    answerOf (step (State.reset.withFetchWord 8 2)) = some (.okWire ⟨0#32, 0#32, 0#32, 0#32⟩) := by decide

/-- Program 5 line 1: the reserved code is refused. -/
theorem test_first_step_refuses_reserved : refusedReserved (step (State.reset.withFetchWord 8 0)) = true := by decide

/-! ### The operations -/

/-- Section 2, row -125000000. -/
theorem test_i2b_negative : answerOf (exec .i2b (onX (-125000000))) =
    some (.okBuffer 0xFFFFFFFFFFFFFFFFFFFFFFFFF88CA6C0#128) := by decide

/-- S5 for I2B: one past the minimum, whose magnitude still has 16 bytes (90_conflicts.md C2). -/
theorem test_i2b_overflow :
    answerOf (exec .i2b (onX (-170141183460469231731687303715884105729))) = some .overflow := by decide

/-- Section 3, first row: the word swap. -/
theorem test_b2w_word_swap : answerOf (exec .b2w (onB 0x00112233445566778899AABBCCDDEEFF#128)) =
    some (.okWire ⟨0x44556677#32, 0x00112233#32, 0xCCDDEEFF#32, 0x8899AABB#32⟩) := by decide

/-- Section 8: no byte swap inside a sub-word. -/
theorem test_b2w_no_byte_swap : answerOf (exec .b2w (onB 1#128)) =
    some (.okWire ⟨0#32, 0#32, 1#32, 0#32⟩) := by decide

/-- S3. -/
theorem test_i2w_minus_one : answerOf (exec .i2w (onX (-1))) =
    some (.okWire ⟨0xFFFFFFFF#32, 0xFFFFFFFF#32, 0xFFFFFFFF#32, 0xFFFFFFFF#32⟩) := by decide

/-- S7. -/
theorem test_i2w_minimum : answerOf (exec .i2w (onX (-170141183460469231731687303715884105728))) =
    some (.okWire ⟨0#32, 0x80000000#32, 0#32, 0#32⟩) := by decide

/-- The example of R48: the shift is arithmetic. -/
theorem test_i2wm_arithmetic_shift : answerOf (exec .i2wm (onX (-18446744073709551617))) =
    some (.okWire ⟨0xFFFFFFFE#32, 0xFFFFFFFF#32, 0xFFFFFFFF#32, 0xFFFFFFFF#32⟩) := by decide

/-- Section 8: the unguarded formula would wrap 2^128 to zero. -/
theorem test_i2wm_overflow : answerOf (exec .i2wm (onX (2 ^ 128))) = some .overflow := by decide

/-- Section 6: `hi = -1, lo = 0`. -/
theorem test_w2i_sign_extends_hi : answerOf (exec .w2i (onW 0xFFFFFFFF#32 0xFFFFFFFF#32 0#32 0#32)) =
    some (.okInteger (-18446744073709551616)) := by decide

/-- Section 6: `lo` is never sign-extended. -/
theorem test_w2i_lo_is_unsigned : answerOf (exec .w2i (onW 0#32 0#32 0xFFFFFFFF#32 0xFFFFFFFF#32)) =
    some (.okInteger 18446744073709551615) := by decide

/-- The example of R51. -/
theorem test_w2b_quarter_order :
    answerOf (exec .w2b (onW 0x89ABCDEF#32 0x01234567#32 0x76543210#32 0xFEDCBA98#32)) =
      some (.okBuffer 0x0123456789ABCDEFFEDCBA9876543210#128) := by decide

/-- Section 6, second table: not the sign-magnitude reading. -/
theorem test_b2i_not_sign_magnitude : answerOf (exec .b2i (onB 0x80000000000000000000000000000001#128)) =
    some (.okInteger (-170141183460469231731687303715884105727)) := by decide

/-- The example of R52. -/
theorem test_b2i_negative : answerOf (exec .b2i (onB 0xFFFFFFFFFFFFFFFFFFFFFFFFF88CA6C0#128)) =
    some (.okInteger (-125000000)) := by decide

/-! ### The helper, the status, the ports and the listing -/

/-- Section 3, the helper's signed branch. -/
theorem test_chunk_signed : chunk true 0x92#8 [0x34#8, 0x56#8, 0x78#8] = -305419896 := by decide

/-- Section 3, the helper on eight bytes. -/
theorem test_chunk_eight_bytes :
    chunk false 0x01#8 [0x02#8, 0x03#8, 0x04#8, 0x05#8, 0x06#8, 0x07#8, 0x08#8] = 72623859790382856 := by decide

/-- R32. -/
theorem test_status : [Response.okInteger 0, .overflow].map statusOf = [0#1, 1#1] := by decide

/-- Section 2, last table: the detector on a port of 129 bits, 2^127 and -1. -/
theorem test_detector : signBitsAgree (BitVec.ofInt 129 (2 ^ 127)) = false ∧
    signBitsAgree (BitVec.ofInt 129 (-1)) = true := by decide

/-- Section 5, row -129: the legacy procedure, which the block does not perform. -/
theorem test_legacy : (legacyBytes (-129)).map be = some 0x80000000000000000000000000000001 := by decide

/-- The example of R40, in the listing syntax of R38. -/
theorem test_listing_i2b : (respond { reqFor .i2b with x := 125000000 }).map
    (listingLine .i2b { reqFor .i2b with x := 125000000 }) =
      some "I2B 125000000 -> 00 00 00 00 00 00 00 00 00 00 00 00 07 73 59 40" := by decide

/-- S4 in the listing syntax. -/
theorem test_listing_overflow : (respond { reqFor .i2w with x := 170141183460469231731687303715884105728 }).map
    (listingLine .i2w { reqFor .i2w with x := 170141183460469231731687303715884105728 }) =
      some "I2W 170141183460469231731687303715884105728 -> OVERFLOW" := by decide

/-! ### Witnesses: a concrete case for the hypotheses of every statement that has some -/

/-- A state with two equal legal transactions to come, the second integer operand negative. -/
def twice (i : Instr) (v : Int) : State :=
  { State.reset with requests := [{ reqFor i with x := v }, { reqFor i with x := v }] }

/-- TableWordDecodedByItsLowBits, FetchWordIsRunNext: a word wider than `OP`, its upper bits set. -/
theorem witness_table_word : 3 ≤ 8 ∧ 0xFD % 8 = (encode .w2i).toNat ∧ decodeTableWord 8 0xFD = some .w2i ∧
    (State.reset.withFetchWord 8 0xFD).requests ≠ [] ∧
    ((twice .i2b (-1)).withFetchWord 8 0xFD).requests.length = 2 := by decide

/-- StepRunsDecodedOperation, EveryLegalTransactionIsAnswered, ResponseDependsOnRequestAlone,
RetryRepeatsTheResponse. -/
theorem witness_legal_step : (twice .i2b (-1)).requests = { reqFor .i2b with x := -1 } :: [{ reqFor .i2b with x := -1 }] ∧
    decode (reqFor .i2b).op = .ok .i2b ∧ (reqFor .i2b).op ≠ 0#3 := by decide

/-- ResponseDependsOnRequestAlone: two states with different pasts and futures and the same next request. -/
theorem witness_same_request : ∃ s s' : State, s ≠ s' ∧ s.requests = reqFor .w2i :: [] ∧
    s'.requests = reqFor .w2i :: [idleRequest] ∧ s'.done ≠ [] :=
  ⟨{ State.reset with requests := [reqFor .w2i] },
    { State.reset with requests := [reqFor .w2i, idleRequest], done := [⟨idleRequest, .overflow⟩] }, by decide⟩

/-- ReservedCodeIsRefused, first clause; RunAnswersEachTransactionAsIfAlone, second clause. -/
theorem witness_reserved : ∃ s : State, s.requests = idleRequest :: [] ∧ idleRequest.op = 0#3 ∧ ¬ LegalRun s :=
  ⟨{ State.reset with requests := [idleRequest] }, rfl, rfl, fun h => absurd (h idleRequest (by simp)) (by decide)⟩

/-- ReservedCodeIsRefused, second clause; DecodeAndEncodeAgree. -/
theorem witness_assigned_code : (0b111#3 ≠ 0#3) ∧ opWf 0b001#3 = true ∧ Instr.wf .b2i = true := by decide

/-- EmptyRunIsIdle. -/
theorem witness_empty_run : State.reset.requests = [] := rfl

/-- The in-range clause, at both ends of the range: I2BByRule, I2WByRule, I2WClosedForm, I2WMByRule,
EncodeThenDecodeGivesTheIntegerBack, BufferPathAgreesWithMaskPath, SignBitPlacement, BufferConversionsAreInverse,
TriangleCommutes, WireValueIsFloorDivision, BufferFromMagnitude, LegacyEncoderAgreesExactly. -/
theorem witness_in_range :
    (-2 ^ 127 ≤ (onX (2 ^ 127 - 1)).req.x ∧ (onX (2 ^ 127 - 1)).req.x ≤ 2 ^ 127 - 1) ∧
    (-2 ^ 127 ≤ (onX (-2 ^ 127)).req.x ∧ (onX (-2 ^ 127)).req.x ≤ 2 ^ 127 - 1) := by decide

/-- The out-of-range clause, one past each end: I2BByRule, I2WByRule, I2WMByRule, OverflowDelivery,
BufferPathAgreesWithMaskPath, UnguardedMaskFormulaWraps. -/
theorem witness_out_of_range :
    (¬ (-2 ^ 127 ≤ (onX (2 ^ 127)).req.x ∧ (onX (2 ^ 127)).req.x ≤ 2 ^ 127 - 1)) ∧
    (¬ (-2 ^ 127 ≤ (onX (-2 ^ 127 - 1)).req.x ∧ (onX (-2 ^ 127 - 1)).req.x ≤ 2 ^ 127 - 1)) := by decide

/-- OverflowDetection, its four literals; ZeroAndBoundaryLiterals; ScaledAmountEncodes. -/
theorem witness_literals :
    (onX 170141183460469231731687303715884105728).req.x = 2 ^ 127 ∧
    (onX (-170141183460469231731687303715884105729)).req.x = -2 ^ 127 - 1 ∧
    (onX 170141183460469231731687303715884105727).req.x = 2 ^ 127 - 1 ∧
    (onX (-170141183460469231731687303715884105728)).req.x = -2 ^ 127 ∧
    (onX 0).req.x = 0 ∧ (onX 1).req.x = 1 ∧ (onX (-1)).req.x = -1 ∧ (onX 125000000).req.x = 125000000 := by decide

/-- UnreadPortsAreIgnored: two requests that differ on every port I2B does not read. -/
theorem witness_unread_ports : agreeOnReads .i2b { reqFor .i2b with x := 5 }
    { reqFor .b2i with x := 5, bi := 9#128, wi := ⟨1#32, 2#32, 3#32, 4#32⟩ } = true := by decide

/-- DecodePathNeverOverflows, the two ends of the range. -/
theorem witness_extreme_wire_values :
    (hiWord (onW 0#32 0x80000000#32 0#32 0#32).req.wi = -2 ^ 63 ∧ loWord (onW 0#32 0x80000000#32 0#32 0#32).req.wi = 0) ∧
    (hiWord (onW 0xFFFFFFFF#32 0x7FFFFFFF#32 0xFFFFFFFF#32 0xFFFFFFFF#32).req.wi = 2 ^ 63 - 1 ∧
      loWord (onW 0xFFFFFFFF#32 0x7FFFFFFF#32 0xFFFFFFFF#32 0xFFFFFFFF#32).req.wi = 2 ^ 64 - 1) := by decide

/-- RangeCheckForms, IntegerPortFormat: a port of 129 bits that presents an out-of-range integer. -/
theorem witness_port : 129 ≤ 129 ∧ integerOfPort (BitVec.ofInt 129 (-2 ^ 127 - 1)) = -2 ^ 127 - 1 := by decide

/-- TwosComplementPattern: both ends of an 8-bit range, and the one-bit range. -/
theorem witness_pattern : (1 ≤ 8 ∧ -(2 : Int) ^ (8 - 1) ≤ -128 ∧ (127 : Int) ≤ 2 ^ (8 - 1) - 1) ∧
    (1 ≤ 1 ∧ -(2 : Int) ^ (1 - 1) ≤ -1 ∧ (0 : Int) ≤ 2 ^ (1 - 1) - 1) := by decide

/-- ByteRunHelper: a first byte with its top bit clear, and one with it set. -/
theorem witness_top_bit : (0x7F#8).getLsbD 7 = false ∧ (0x80#8).getLsbD 7 = true := by decide

/-- BufferReadAfterWrite: the last quarter, with the greatest value it holds; WordAssembly: the greatest words. -/
theorem witness_write : 12 + 4 ≤ 16 ∧ 0xFFFFFFFF < 256 ^ 4 ∧ 2 ^ 64 - 1 < 2 ^ 64 := by decide

/-- ArithmeticPrimitives: the greatest patterns. -/
theorem witness_greatest_patterns : 2 ^ 64 - 1 < 2 ^ 64 ∧ 2 ^ 128 - 1 < 2 ^ 128 := by decide

/-- BufferFromMagnitude, second part: a non-empty run that spells 300. -/
theorem witness_run : [0#8, 1#8, 44#8] ≠ [] ∧ be [0#8, 1#8, 44#8] = 300 := by decide

/-- LegacyEncoderAgreesExactly, third part. -/
theorem witness_legacy_buffer : legacyBytes (-1) = some (0x80#8 :: List.replicate 14 0#8 ++ [1#8]) ∧
    (onB (portOfBuffer (bufferOfBytes (0x80#8 :: List.replicate 14 0#8 ++ [1#8])))).req.bi =
      0x80000000000000000000000000000001#128 := by decide

/-- LegalRun: RunAnswersEachTransactionAsIfAlone, OrderOfTransactionsDoesNotMatter. -/
theorem witness_legal_run : LegalRun (twice .w2b 0) ∧ (twice .w2b 0).done = [] ∧
    (twice .w2b 0).requests.Perm (twice .w2b 0).requests.reverse := by
  refine ⟨fun r hr => ?_, rfl, (List.reverse_perm _).symm⟩
  have h : r = { reqFor .w2b with x := 0 } := by simpa [twice] using hr
  rw [h]
  decide

/-- The run that has answered one transaction: W2I of sixteen `FF`. -/
def oneAnswered : State :=
  { twice .w2i 0 with done := [⟨{ reqFor .w2i with
      wi := ⟨0xFFFFFFFF#32, 0xFFFFFFFF#32, 0xFFFFFFFF#32, 0xFFFFFFFF#32⟩ }, .okInteger (-1)⟩] }

/-- HonouredRun, on a state with an answer in it and a legal transaction to come: StepKeepsContractsHonoured,
HonouredAnswersAreUnique. -/
theorem witness_honoured_run : HonouredRun oneAnswered ∧ oneAnswered.done ≠ [] ∧
    (answerOf (step oneAnswered)).isSome = true := by
  refine ⟨fun t ht => ⟨.w2i, ?_⟩, by decide, by decide⟩
  have h : t = ⟨{ reqFor .w2i with
      wi := ⟨0xFFFFFFFF#32, 0xFFFFFFFF#32, 0xFFFFFFFF#32, 0xFFFFFFFF#32⟩ }, .okInteger (-1)⟩ := by
    simpa [oneAnswered] using ht
  rw [h]
  refine ⟨by decide, ?_⟩
  show Response.okInteger (-1) = Response.okInteger _
  decide

end Sys2Proof.Tests
end

section
/-!
PROOFS. The arithmetic of 00_scope.md: the equivalent forms of the range check (R6) and the N-bit two's-complement
pattern of an integer (R7).
-/

namespace Sys2Proof.Machine

/-! ### The range check: integers (R6) -/

theorem inRange_iff_sext_eq (v : Int) : inRange v = true ↔ sext 128 v = v := by
  rw [sext_eq_toInt_ofInt (by norm_num)]
  constructor
  · exact toInt_ofInt_of_inRange
  · intro h
    rw [← h]
    exact inRange_toInt _

theorem inRange_iff_asr (v : Int) : inRange v = true ↔ asr v 127 = 0 ∨ asr v 127 = -1 := by
  rw [inRange_iff, asr]
  norm_num
  omega

/-! ### The range check: ports (R6, last form)

Shifting the pattern right by `k` keeps exactly the bits from `k` up, so these bits all being equal says that the shift
is a constant pattern. -/

theorem asr_toInt {w : Nat} (p : BitVec w) (k : Nat) : asr p.toInt k = (p.sshiftRight k).toInt := by
  rw [BitVec.toInt_sshiftRight, Int.shiftRight_eq_div_pow, asr]
  norm_cast

theorem getLsbD_sshiftRight_of_lt {w i : Nat} (p : BitVec w) (k : Nat) (hi : i < w) :
    (p.sshiftRight k).getLsbD i = if k + i < w then p.getLsbD (k + i) else p.msb := by
  rw [BitVec.getLsbD_sshiftRight, decide_eq_false (not_le.mpr hi), Bool.not_false, Bool.true_and]

theorem sshiftRight_eq_fill_iff {w : Nat} (p : BitVec w) {k : Nat} (hk : k < w) (b : Bool) :
    p.sshiftRight k = BitVec.fill w b ↔ ∀ j, k ≤ j → j < w → p.getLsbD j = b := by
  have hfill : ∀ i, i < w → (BitVec.fill w b).getLsbD i = b := fun i hi => by
    rw [BitVec.getLsbD_fill, decide_eq_true hi, Bool.and_true]
  rw [BitVec.eq_of_getLsbD_eq_iff]
  constructor
  · intro h j hkj hjw
    have hbit := h (j - k) (by omega)
    rwa [getLsbD_sshiftRight_of_lt p k (by omega), hfill _ (by omega), Nat.add_sub_cancel' hkj, if_pos hjw] at hbit
  · intro h i hi
    rw [getLsbD_sshiftRight_of_lt p k hi, hfill i hi]
    split
    · next hki => exact h (k + i) (by omega) hki
    · rw [BitVec.msb_eq_getLsbD_last, h (w - 1) (by omega) (by omega)]

theorem asr_toInt_eq_zero_iff {w : Nat} (p : BitVec w) {k : Nat} (hk : k < w) :
    asr p.toInt k = 0 ↔ ∀ j, k ≤ j → j < w → p.getLsbD j = false := by
  rw [← sshiftRight_eq_fill_iff p hk, ← BitVec.toInt_inj, asr_toInt]
  simp

theorem asr_toInt_eq_neg_one_iff {w : Nat} (p : BitVec w) {k : Nat} (hk : k < w) :
    asr p.toInt k = -1 ↔ ∀ j, k ≤ j → j < w → p.getLsbD j = true := by
  have hw : 0 < w := by omega
  rw [← sshiftRight_eq_fill_iff p hk, ← BitVec.toInt_inj, asr_toInt, BitVec.fill_true, BitVec.toInt_allOnes, if_pos hw]

theorem inRange_toInt_iff_bits_equal {xw : Nat} (hxw : 127 < xw) (p : BitVec xw) :
    inRange p.toInt = true ↔ ∀ j, 127 ≤ j → j < xw → p.getLsbD j = p.getLsbD 127 := by
  rw [inRange_iff_asr, asr_toInt_eq_zero_iff p hxw, asr_toInt_eq_neg_one_iff p hxw]
  constructor
  · rintro (h | h) j hj hjw <;> rw [h j hj hjw, h 127 le_rfl hxw]
  · intro h
    cases hb : p.getLsbD 127 with
    | false => exact .inl fun j hj hjw => (h j hj hjw).trans hb
    | true => exact .inr fun j hj hjw => (h j hj hjw).trans hb

theorem signBitsAgree_iff {xw : Nat} (p : BitVec xw) :
    signBitsAgree p = true ↔ ∀ j, 127 ≤ j → j < xw → p.getLsbD j = p.getLsbD 127 := by
  simp only [signBitsAgree, List.all_eq_true, List.mem_range, beq_iff_eq]
  constructor
  · intro h j hj hjw
    have hbit := h (j - 127) (by omega)
    rwa [Nat.add_sub_cancel' hj] at hbit
  · intro h i hi
    exact h (127 + i) (by omega) (by omega)

theorem integerOfPort_eq_toInt {xw : Nat} (hxw : 0 < xw) (p : BitVec xw) : integerOfPort p = p.toInt :=
  signed_toNat hxw p

/-! ### The two's-complement pattern (R7) -/

theorem toInt_ofInt_of_fits {n : Nat} {v : Int} (hn : 1 ≤ n) (hlo : -2 ^ (n - 1) ≤ v) (hhi : v ≤ 2 ^ (n - 1) - 1) :
    (BitVec.ofInt n v).toInt = v :=
  BitVec.toInt_ofInt_eq_self hn hlo (by omega)

theorem zext_of_neg {n : Nat} {v : Int} (hneg : v < 0) (hlo : -2 ^ n ≤ v) : (zext n v : Int) = 2 ^ n + v := by
  have hpos : (0 : Int) < 2 ^ n := by positivity
  have hmod : v % 2 ^ n = 2 ^ n + v := by
    rw [← Int.add_emod_left, Int.emod_eq_of_lt (by omega) (by omega)]
  rw [zext, hmod, Int.toNat_of_nonneg (by omega)]

theorem ofNat_zext_of_neg (n : Nat) {v : Int} (hneg : v < 0) :
    BitVec.ofNat n (zext n v) = ~~~(BitVec.ofNat n v.natAbs) + 1#n := by
  have hv : v = -(v.natAbs : Int) := by omega
  calc BitVec.ofNat n (zext n v) = BitVec.ofInt n v := ofNat_zext n v
    _ = -BitVec.ofNat n v.natAbs := by conv_lhs => rw [hv, BitVec.ofInt_neg, BitVec.ofInt_natCast]
    _ = ~~~(BitVec.ofNat n v.natAbs) + 1#n := BitVec.neg_eq_not_add _

theorem testBit_zext_top (n : Nat) (v : Int) :
    Nat.testBit (zext n v) (n - 1) = true ↔ (BitVec.ofInt n v).toInt < 0 := by
  rw [zext_eq_toNat_ofInt, BitVec.testBit_toNat, ← BitVec.msb_eq_getLsbD_last, BitVec.msb_eq_toInt, decide_eq_true_iff]

end Sys2Proof.Machine

open Sys2Proof.Machine

/-- Settles O34: on integers by the two's-complement reading at 128 bits, on ports by the arithmetic shift by 127. -/
theorem rangeCheckForms : Obligations.RangeCheckForms := by
  intro v
  refine ⟨inRange_iff v, inRange_iff_sext_eq v, inRange_iff_asr v, ?_⟩
  intro xw p hxw hp
  rw [integerOfPort_eq_toInt (by omega)] at hp
  subst hp
  have hbits := inRange_toInt_iff_bits_equal (by omega) p
  exact ⟨hbits, hbits.trans (signBitsAgree_iff p).symm⟩

/-- Settles O35: the pattern is that of `BitVec.ofInt`, which reads back as `v` on the stated range. -/
theorem twosComplementPattern : Obligations.TwosComplementPattern := by
  intro n v hn hlo hhi
  have hback := toInt_ofInt_of_fits hn hlo hhi
  refine ⟨zext_lt n v, ?_, fun hneg => ⟨?_, ofNat_zext_of_neg n hneg⟩, ?_⟩
  · rw [← sext, sext_eq_toInt_ofInt hn, hback]
  · have hpow : (2 : Int) ^ (n - 1) ≤ 2 ^ n := pow_le_pow_right₀ (by norm_num) (by omega)
    rw [zext_of_neg hneg (by omega)]
    omega
  · rw [testBit_zext_top, hback]

end

section
/-!
PROOFS. The block is a function of the request (10_state.md R10): the response of each operation as a function of the
request in hand alone, and every step as the delivery of that response.
-/

namespace Sys2Proof.Machine

/-- The response of an operation to a request, with the contents of the working buffer (log entry 6) eliminated: the
encode operations and W2B drive the 128-bit pattern of the value. -/
def responseOf (i : Instr) (r : Request) : Response :=
  match i with
  | .i2b => if inRange r.x then .okBuffer (BitVec.ofInt 128 r.x) else .overflow
  | .b2w => .okWire (wireOfBuffer (bufferOfPort r.bi))
  | .i2w => if inRange r.x then .okWire (wireOfBuffer (bufferOfPort (BitVec.ofInt 128 r.x))) else .overflow
  | .i2wm => if inRange r.x then .okWire (wireByMask r.x) else .overflow
  | .w2i => .okInteger (integerOfWire r.wi)
  | .w2b => .okBuffer (wirePattern r.wi)
  | .b2i => .okInteger (integerOfBuffer (bufferOfPort r.bi))

/-- An operation reads nothing of the state but the request in hand: neither the caller's other transactions, nor the
earlier answers, nor what its fresh working buffer holds. -/
theorem exec_eq_answer_responseOf (i : Instr) (s : State) :
    exec i s = .next (s.answer (responseOf i s.req)) := by
  cases i with
  | i2b => cases h : inRange s.req.x <;>
      simp [exec, execI2B, raiseOverflow, responseOf, h, portOfBuffer_bufferOfInteger]
  | i2w => cases h : inRange s.req.x <;>
      simp [exec, execI2W, raiseOverflow, responseOf, h, bufferOfInteger_eq]
  | i2wm => cases h : inRange s.req.x <;> simp [exec, execI2WM, raiseOverflow, responseOf, h]
  | w2b => simp [exec, execW2B, responseOf, portOfBuffer_bufferOfWire]
  | b2w | w2i | b2i => rfl

theorem exists_decode_eq_ok {op : BitVec 3} (h : op ≠ 0#3) : ∃ i, decode op = .ok i := by
  cases hdec : decode op with
  | error e => exact absurd (eq_reserved_of_decode_error hdec) h
  | ok i => exact ⟨i, rfl⟩

/-- A step with a legal request next delivers the response of the operation it selects. -/
theorem step_of_decode {s : State} {r : Request} {rest : List Request} {i : Instr}
    (hreq : s.requests = r :: rest) (hdec : decode r.op = .ok i) :
    step s = .next { req := r, requests := rest, done := s.done ++ [⟨r, responseOf i r⟩] } :=
  calc step s = exec i (s.present r rest) := by simp [step, nextRequest, hreq, hdec]
    _ = _ := exec_eq_answer_responseOf i (s.present r rest)

/-- Alone in a run, a legal request gets the response of the operation it selects. -/
theorem respond_of_decode {r : Request} {i : Instr} (hdec : decode r.op = .ok i) :
    respond r = some (responseOf i r) := by
  have hstep : step { State.reset with requests := [r] } =
      .next { req := r, requests := [], done := [⟨r, responseOf i r⟩] } := step_of_decode rfl hdec
  rw [respond, hstep]
  rfl

end Sys2Proof.Machine

open Sys2Proof.Machine

/-- Settles O10: both steps, and the run of the request alone, deliver `responseOf` of the operation selected. -/
theorem responseDependsOnRequestAlone : Obligations.ResponseDependsOnRequestAlone := by
  intro s s' r rest rest' hs hs' hop
  obtain ⟨i, hdec⟩ := exists_decode_eq_ok hop
  exact ⟨responseOf i r, respond_of_decode hdec, step_of_decode hs hdec, step_of_decode hs' hdec⟩

end

section
/-!
PROOFS. The views of one buffer agree (20_memory.md R29): every read is a bit field of `U(B)`, and a read of adjacent
ranges is the concatenation of the reads, which ties the halves to the words the quarters are assembled into.
-/

namespace Sys2Proof.Machine

/-- Every in-bounds read is a bit field of `U(B)`. -/
theorem memRead_eq_bits (b : Buffer) {i n : Nat} (hn : 0 < n) (h : i + n ≤ 16) :
    memRead b i n = bits (bufferValue b) (127 - 8 * i) (128 - 8 * (i + n)) := by
  have hlo : 128 - 8 * (i + n) = 8 * (16 - i - n) := by omega
  have hwidth : 127 - 8 * i - (128 - 8 * (i + n)) + 1 = 8 * n := by omega
  rw [memRead_eq b i n h, bits, hwidth, hlo, pow_mul, pow_mul]
  norm_num

theorem memRead_one (b : Buffer) {i : Nat} (h : i < 16) : memRead b i 1 = b[i].toNat := by
  have hrun : (b.toList.drop i).take 1 = [b[i]] := by
    rw [List.drop_eq_getElem_cons (by simpa using h)]
    simp
  simp [memRead, hrun]

/-- A read of two adjacent ranges puts the first one on top. -/
theorem memRead_add (b : Buffer) {i m n : Nat} (h : i + m + n ≤ 16) :
    memRead b i (m + n) = memRead b i m * 256 ^ n + memRead b (i + m) n := by
  have hlen : ((b.toList.drop (i + m)).take n).length = n := by
    simp only [List.length_take, List.length_drop, Vector.length_toList]
    omega
  rw [memRead, List.take_add, List.drop_drop, be_append, hlen, memRead, memRead]

theorem hiPattern_wireOfBuffer (b : Buffer) : hiPattern (wireOfBuffer b) = memRead b 0 8 := by
  obtain ⟨h0, h1, -, -⟩ := wireOfBuffer_toNat b
  rw [hiPattern, h0, h1, memRead_add b (i := 0) (m := 4) (n := 4) (by norm_num)]
  norm_num

theorem loWord_wireOfBuffer (b : Buffer) : loWord (wireOfBuffer b) = memRead b 8 8 := by
  obtain ⟨-, -, l0, l1⟩ := wireOfBuffer_toNat b
  rw [loWord, l0, l1, memRead_add b (i := 8) (m := 4) (n := 4) (by norm_num)]
  norm_num

theorem zext_signed {n u : Nat} (hn : 0 < n) (hu : u < 2 ^ n) : zext n (signed n u) = u := by
  have hpat : (BitVec.ofNat n u).toNat = u := by rw [BitVec.toNat_ofNat, Nat.mod_eq_of_lt hu]
  calc zext n (signed n u) = zext n (BitVec.ofNat n u).toInt := by rw [← signed_toNat hn, hpat]
    _ = u := by rw [zext_toInt, hpat]

theorem zext_hiWord (w : WireValue) : zext 64 (hiWord w) = hiPattern w :=
  zext_signed (by norm_num) (hiPattern_lt w)

end Sys2Proof.Machine

open Sys2Proof.Machine

/-- Settles O36: each view is a read, hence a bit field of `U(B)`; the halves are the words of the buffer's wire value
because both are assembled from the same quarters. -/
theorem mixedWidthViewsAgree : Obligations.MixedWidthViewsAgree := by
  refine ⟨fun b => ⟨fun i hi => ⟨memRead_one b hi, ?byte⟩, memRead_whole b, ?upperHalf, ?hi, ?lowerHalf,
    (loWord_wireOfBuffer b).symm, fun k hk => ?quarter⟩, ?exampleQuarter, ?exampleHalf⟩
  case byte =>
    have hhi : 8 * (15 - i) + 7 = 127 - 8 * i := by omega
    have hlo : 8 * (15 - i) = 128 - 8 * (i + 1) := by omega
    rw [← memRead_one b hi, memRead_eq_bits b one_pos hi, hhi, hlo]
  case upperHalf => exact memRead_eq_bits b (by norm_num) (by norm_num)
  case hi => rw [zext_hiWord, hiPattern_wireOfBuffer]
  case lowerHalf => exact memRead_eq_bits b (by norm_num) (by norm_num)
  case quarter =>
    have hhi : 127 - 32 * k = 127 - 8 * (4 * k) := by omega
    have hlo : 96 - 32 * k = 128 - 8 * (4 * k + 4) := by omega
    rw [memRead_eq_bits b (by norm_num) (by omega), hhi, hlo]
  case exampleQuarter =>
    rw [memRead_eq_bits _ (by norm_num) (by norm_num), bufferValue_bufferOfPort]
    rfl
  case exampleHalf =>
    rw [memRead_eq_bits _ (by norm_num) (by norm_num), bufferValue_bufferOfPort]
    rfl

end

section
/-!
PROOFS. The encodings of 30_encoding.md: the integer ports (R33), the buffer ports (R34), the words and sub-words of a
wire value (R35) and the reserved code (R36).
-/

namespace Sys2Proof.Machine

/-! ### Integer ports (R33) -/

theorem portOfInteger_eq_ofInt (xw : Nat) (r : Int) : portOfInteger xw r = BitVec.ofInt xw r := ofNat_zext xw r

/-- A port that is wide enough presents every in-range integer. -/
theorem toInt_ofInt_of_inRange_of_width {xw : Nat} (hxw : 128 ≤ xw) {r : Int} (hr : inRange r = true) :
    (BitVec.ofInt xw r).toInt = r := by
  obtain ⟨hlo, hhi⟩ := (inRange_iff r).mp hr
  have hpow : (2 : Int) ^ 127 ≤ 2 ^ (xw - 1) := pow_le_pow_right₀ (by norm_num) (by omega)
  exact toInt_ofInt_of_fits (by omega) (by omega) (by omega)

/-- The sign extension: from bit 127 up the pattern of an in-range integer is its sign, because the bits there are all
equal and the last of them is the sign. -/
theorem getLsbD_ofInt_of_inRange {xw j : Nat} {r : Int} (hr : inRange r = true) (hj : 127 ≤ j) (hjw : j < xw) :
    (BitVec.ofInt xw r).getLsbD j = decide (r < 0) := by
  have hback := toInt_ofInt_of_inRange_of_width (xw := xw) (by omega) hr
  have hequal := (inRange_toInt_iff_bits_equal (by omega) (BitVec.ofInt xw r)).mp (by rwa [hback])
  calc (BitVec.ofInt xw r).getLsbD j = (BitVec.ofInt xw r).getLsbD 127 := hequal j hj hjw
    _ = (BitVec.ofInt xw r).getLsbD (xw - 1) := (hequal (xw - 1) (by omega) (by omega)).symm
    _ = decide (r < 0) := by rw [← BitVec.msb_eq_getLsbD_last, BitVec.msb_eq_toInt, hback]

/-! ### Buffer ports (R34) -/

theorem getElem_bufferOfPort (p : BufferPort) {i : Nat} (h : i < 16) :
    (bufferOfPort p)[i] = p.extractLsb' (120 - 8 * i) 8 := by
  simp [bufferOfPort]

theorem toNat_getElem_bufferOfPort (p : BufferPort) {i : Nat} (h : i < 16) :
    (bufferOfPort p)[i].toNat = bits p.toNat (127 - 8 * i) (120 - 8 * i) := by
  have hwidth : 127 - 8 * i - (120 - 8 * i) + 1 = 8 := by omega
  rw [getElem_bufferOfPort p h, BitVec.extractLsb'_toNat, Nat.shiftRight_eq_div_pow, bits, hwidth]

theorem getLsbD_top_eq_getElem_bufferOfPort (p : BufferPort) :
    p.getLsbD 127 = (bufferOfPort p)[0].getLsbD 7 := by
  rw [getElem_bufferOfPort p (by norm_num), BitVec.getLsbD_extractLsb']
  rfl

/-! ### Words and sub-words (R35) -/

theorem bits_assembled_upper (a b : SubWord) : bits (a.toNat * 2 ^ 32 + b.toNat) 63 32 = a.toNat := by
  rw [bits]
  omega

theorem bits_assembled_lower (a b : SubWord) : bits (a.toNat * 2 ^ 32 + b.toNat) 31 0 = b.toNat := by
  rw [bits]
  omega

/-- Splitting the words of a wire value gives back its sub-words. -/
theorem wireOfWords_hiPattern_loWord (w : WireValue) : wireOfWords (hiPattern w) (loWord w) = w := by
  simp only [wireOfWords, hiPattern, loWord, bits_assembled_upper, bits_assembled_lower, BitVec.ofNat_toNat,
    BitVec.setWidth_eq]

theorem hiWord_eq_toInt (w : WireValue) : hiWord w = (BitVec.ofNat 64 (hiPattern w)).toInt := by
  rw [← signed_toNat (by norm_num), BitVec.toNat_ofNat, Nat.mod_eq_of_lt (hiPattern_lt w), hiWord]

theorem hiWord_range (w : WireValue) : -2 ^ 63 ≤ hiWord w ∧ hiWord w ≤ 2 ^ 63 - 1 := by
  rw [hiWord_eq_toInt]
  exact ⟨BitVec.le_toInt _, Int.le_sub_one_of_lt BitVec.toInt_lt⟩

/-- The value of the two words is the reading W2I makes: sign-extending `hi` once more changes nothing. -/
theorem integerOfWire_eq_words (w : WireValue) : integerOfWire w = hiWord w * 2 ^ 64 + loWord w := by
  have hpat : zext 64 (hiPattern w) = hiPattern w := by
    rw [zext_eq_toNat_ofInt, BitVec.ofInt_natCast, BitVec.toNat_ofNat, Nat.mod_eq_of_lt (hiPattern_lt w)]
  rw [integerOfWire, sext, hpat, hiWord]

theorem msb_wirePattern (w : WireValue) : (wirePattern w).msb = w.hiW1.getLsbD 31 := by
  have hmsb : (w.hiW1 ++ w.hiW0 ++ w.loW1 ++ w.loW0).msb = w.hiW1.msb := by
    simp only [BitVec.msb_append, Nat.add_eq_zero_iff, OfNat.ofNat_ne_zero, and_self, if_false]
  exact hmsb.trans (BitVec.msb_eq_getLsbD_last w.hiW1)

theorem words_neg_iff (w : WireValue) :
    hiWord w * 2 ^ 64 + loWord w < 0 ↔ w.hiW1.getLsbD 31 = true := by
  rw [← integerOfWire_eq_words, integerOfWire_eq, ← msb_wirePattern, BitVec.msb_eq_toInt, decide_eq_true_iff]

/-! ### The reserved code (R36) -/

theorem decode_reserved {op : BitVec 3} (h : op = 0#3) : decode op = .error .reservedOp := by
  rw [h]
  rfl

/-- A request with the reserved code is refused before any operand is looked at. -/
theorem step_of_reserved {s : State} {r : Request} {rest : List Request} (hreq : s.requests = r :: rest)
    (hop : r.op = 0#3) : step s = .refused .reservedOp := by
  simp [step, nextRequest, hreq, decode_reserved hop]

end Sys2Proof.Machine

open Sys2Proof.Machine

/-- Settles O5: the decoder rejects the reserved code and no other, and the step refuses what the decoder rejects. -/
theorem reservedCodeIsRefused : Obligations.ReservedCodeIsRefused :=
  ⟨fun _ _ _ hreq hop => ⟨decode_reserved hop, step_of_reserved hreq hop⟩, fun _ hop => exists_decode_eq_ok hop⟩

/-- Settles O37: the bytes and the sign bit are those of the port a buffer is taken from, and every buffer is taken from
its own port. -/
theorem bufferPortFormat : Obligations.BufferPortFormat := by
  refine ⟨fun p => ⟨fun i h => toNat_getElem_bufferOfPort p h, bufferValue_bufferOfPort p,
    getLsbD_top_eq_getElem_bufferOfPort p, portOfBuffer_bufferOfPort p⟩,
    fun b => ⟨fun i h => ?byte, toNat_portOfBuffer b, ?signBit⟩⟩
  case byte => simpa using toNat_getElem_bufferOfPort (portOfBuffer b) h
  case signBit => simpa using getLsbD_top_eq_getElem_bufferOfPort (portOfBuffer b)

/-- Settles O43: the pattern of `hi` is `hi_u`, so that every split is of the two assembled words; the sign is the top
bit of the 128-bit pattern. -/
theorem wordAssembly : Obligations.WordAssembly := by
  refine ⟨fun w => ?_, fun hiU lo hhi hlo => ⟨hiPattern_wireOfWords hhi, loWord_wireOfWords hlo⟩⟩
  obtain ⟨hmin, hmax⟩ := hiWord_range w
  rw [zext_hiWord]
  exact ⟨rfl, hiPattern_lt w, rfl, hmin, hmax, rfl, loWord_lt w, (bits_assembled_upper _ _).symm,
    (bits_assembled_lower _ _).symm, (bits_assembled_upper _ _).symm, (bits_assembled_lower _ _).symm,
    wireOfWords_hiPattern_loWord w, words_neg_iff w⟩

/-- Settles O44: both directions of the port are Lean's two's-complement reading and pattern at the port's width. -/
theorem integerPortFormat : Obligations.IntegerPortFormat := by
  intro xw hxw
  have hread (p : BitVec xw) : integerOfPort p = p.toInt := integerOfPort_eq_toInt (by omega) p
  refine ⟨fun p r => ⟨hread p, ?driveBack, rfl⟩, fun r hlo hhi => ?driven⟩
  case driveBack => rw [hread, portOfInteger_eq_ofInt, BitVec.ofInt_toInt]
  case driven =>
    have hr : inRange r = true := (inRange_iff r).mpr ⟨hlo, hhi⟩
    rw [hread, portOfInteger_eq_ofInt]
    exact ⟨(zext_eq_toNat_ofInt xw r).symm, toInt_ofInt_of_inRange_of_width (by omega) hr,
      fun j hj hjw => getLsbD_ofInt_of_inRange hr hj hjw⟩

end

section
/-!
PROOFS. The buffer path of 40_buffer_path.md: the byte-run helper (R42), what the encode operations answer on each side
of the range check, and the rules of I2B, B2W and I2W with the closed form of the last (R40, R44, R45, R47).
-/

namespace Sys2Proof.Machine

/-! ### The byte-run helper (R42) -/

theorem getLsbD_top_iff (b : Byte) : b.getLsbD 7 = true ↔ 128 ≤ b.toNat := by
  rw [← BitVec.msb_eq_getLsbD_last b, BitVec.msb_eq_decide, decide_eq_true_iff]

theorem chunk_signed_of_top_clear {b0 : Byte} (rest : List Byte) (h : b0.getLsbD 7 = false) :
    chunk true b0 rest = (be (b0 :: rest) : Int) := by
  rw [chunk, h, Bool.and_false, if_neg Bool.false_ne_true]

/-- With the flag on and the top bit set the helper is minus the value of the run with that bit cleared. -/
theorem chunk_signed_of_top_set {b0 : Byte} (rest : List Byte) (h : b0.getLsbD 7 = true) :
    chunk true b0 rest = -((b0.toNat - 128) * 256 ^ rest.length + be rest : Nat) := by
  have hcleared : (BitVec.ofNat 8 (b0.toNat - 128)).toNat = b0.toNat - 128 := by
    rw [BitVec.toNat_ofNat]
    omega
  rw [chunk, h, Bool.and_self, if_pos rfl, be_cons, hcleared, neg_one_mul]

/-- A run whose first byte is below 128 spells a value that leaves the top bit of its length clear. -/
theorem run_lt_of_first_lt {a : Nat} (ha : a < 128) (rest : List Byte) :
    a * 256 ^ rest.length + be rest < 2 ^ (8 * (rest.length + 1) - 1) :=
  calc a * 256 ^ rest.length + be rest
      < a * 256 ^ rest.length + 256 ^ rest.length := Nat.add_lt_add_left (be_lt rest) _
    _ = (a + 1) * 256 ^ rest.length := (Nat.succ_mul _ _).symm
    _ ≤ 128 * 256 ^ rest.length := Nat.mul_le_mul_right _ ha
    _ = 2 ^ 7 * (2 ^ 8) ^ rest.length := by norm_num
    _ = 2 ^ (8 * (rest.length + 1) - 1) := by
      rw [← pow_mul, ← pow_add]
      congr 1
      omega

/-- The signed helper has the sign-magnitude range of the run, symmetric about zero. -/
theorem natAbs_chunk_signed_lt (b0 : Byte) (rest : List Byte) :
    (chunk true b0 rest).natAbs < 2 ^ (8 * (rest.length + 1) - 1) := by
  have hbyte := b0.isLt
  cases htop : b0.getLsbD 7 with
  | false =>
    have hlt : b0.toNat < 128 := by
      rw [← not_le, ← getLsbD_top_iff, htop]
      exact Bool.false_ne_true
    rw [chunk_signed_of_top_clear rest htop, Int.natAbs_natCast]
    exact run_lt_of_first_lt hlt rest
  | true =>
    rw [chunk_signed_of_top_set rest htop, Int.natAbs_neg, Int.natAbs_natCast]
    exact run_lt_of_first_lt (by omega) rest

@[simp] theorem be_replicate_zero (m : Nat) : be (List.replicate m 0#8) = 0 := by
  induction m with
  | zero => rfl
  | succ m ih => simp [List.replicate_succ, ih]

/-! ### The answers of the encode operations -/

theorem exec_of_not_inRange {i : Instr} (hi : i.canOverflow = true) {s : State} (h : ¬ inRange s.req.x = true) :
    exec i s = .next (s.answer .overflow) := by
  rw [exec_eq_answer_responseOf]
  cases i with
  | i2b | i2w | i2wm => rw [responseOf, if_neg h]
  | b2w | w2i | w2b | b2i => cases hi

theorem exec_i2b_of_inRange {s : State} (h : inRange s.req.x = true) :
    exec .i2b s = .next (s.answer (.okBuffer (BitVec.ofInt 128 s.req.x))) := by
  rw [exec_eq_answer_responseOf, responseOf, if_pos h]

theorem exec_i2w_of_inRange {s : State} (h : inRange s.req.x = true) :
    exec .i2w s = .next (s.answer (.okWire (wireOfBuffer (bufferOfPort (BitVec.ofInt 128 s.req.x))))) := by
  rw [exec_eq_answer_responseOf, responseOf, if_pos h]

/-- The two encode paths reach the same wire value, in range or not, because both spell the pattern of the integer. -/
theorem wireByMask_eq_wireOfBuffer (v : Int) :
    wireByMask v = wireOfBuffer (bufferOfPort (BitVec.ofInt 128 v)) := by
  apply wirePattern_injective
  rw [wirePattern_wireByMask, wirePattern_wireOfBuffer, portOfBuffer_bufferOfPort]

theorem exec_i2wm_of_inRange {s : State} (h : inRange s.req.x = true) :
    exec .i2wm s = .next (s.answer (.okWire (wireOfBuffer (bufferOfPort (BitVec.ofInt 128 s.req.x))))) := by
  rw [exec_eq_answer_responseOf, responseOf, if_pos h, wireByMask_eq_wireOfBuffer]

/-! ### The buffer and the wire value of an integer -/

theorem bufferOfBytes_toList (b : Buffer) : bufferOfBytes b.toList = b := by
  apply Vector.ext
  intro i hi
  rw [bufferOfBytes, Vector.getElem_ofFn, List.getD_eq_getElem _ _ (by simpa using hi), Vector.getElem_toList]

/-- The bytes R45 names are those of the port pattern of the integer. -/
theorem bufferOfBytes_bytesBe_zext (v : Int) :
    bufferOfBytes (bytesBe 16 (zext 128 v)) = bufferOfPort (BitVec.ofInt 128 v) := by
  rw [zext_eq_toNat_ofInt, ← toList_bufferOfPort, bufferOfBytes_toList]

/-- Every read of the integer's buffer is a bit field of `zext_128(v)`. -/
theorem memRead_bufferOfPort_ofInt (v : Int) {i n : Nat} (hn : 0 < n) (h : i + n ≤ 16) :
    memRead (bufferOfPort (BitVec.ofInt 128 v)) i n = bits (zext 128 v) (127 - 8 * i) (128 - 8 * (i + n)) := by
  rw [memRead_eq_bits _ hn h, bufferValue_bufferOfPort, zext_eq_toNat_ofInt]

theorem hiWord_wireOfBuffer (b : Buffer) : hiWord (wireOfBuffer b) = signed 64 (memRead b 0 8) := by
  rw [hiWord, hiPattern_wireOfBuffer]

theorem integerOfWire_wireOfBuffer_of_inRange {v : Int} (h : inRange v = true) :
    integerOfWire (wireOfBuffer (bufferOfPort (BitVec.ofInt 128 v))) = v := by
  rw [integerOfWire_eq, wirePattern_wireOfBuffer, portOfBuffer_bufferOfPort, toInt_ofInt_of_inRange h]

/-- The upper word of a wire value is the floor quotient of the integer it spells. -/
theorem hiWord_eq_asr (w : WireValue) : hiWord w = asr (integerOfWire w) 64 := by
  have hlt := loWord_lt w
  rw [integerOfWire_eq_words, asr]
  omega

/-- The lower word of a wire value is the remainder of the integer it spells. -/
theorem loWord_eq_emod (w : WireValue) : (loWord w : Int) = integerOfWire w % 2 ^ 64 := by
  have hlt := loWord_lt w
  rw [integerOfWire_eq_words]
  omega

end Sys2Proof.Machine

open Sys2Proof.Machine

/-- Settles O39: by the top bit of the first byte, with one bound for both branches of the signed helper. -/
theorem byteRunHelper : Obligations.ByteRunHelper := by
  refine ⟨fun b0 rest => ?helper, fun m => ?negativeZero, by decide, by decide, by decide, by decide, by decide⟩
  case helper =>
    have hunsigned : (be (b0 :: rest) : Int) < 256 ^ (rest.length + 1) := mod_cast be_lt (b0 :: rest)
    have hsigned : ((chunk true b0 rest).natAbs : Int) < 2 ^ (8 * (rest.length + 1) - 1) :=
      mod_cast natAbs_chunk_signed_lt b0 rest
    exact ⟨chunk_unsigned b0 rest, Int.natCast_nonneg _, hunsigned, chunk_signed_of_top_clear rest,
      fun htop => ⟨chunk_signed_of_top_set rest htop, (getLsbD_top_iff b0).mp htop⟩, by omega, by omega⟩
  case negativeZero =>
    rw [chunk_signed_of_top_set _ (by decide), be_replicate_zero]
    simp

/-- Settles O11: in range `BO` is the port pattern of the integer, whose bytes and sign bit are those of any buffer
port; out of range every encode operation answers Overflow. -/
theorem i2BByRule : Obligations.I2BByRule := by
  refine ⟨rfl, fun s => ⟨fun hrange => ?ok, fun hrange => ?overflow⟩⟩
  case ok =>
    have hin : inRange s.req.x = true := (inRange_iff _).mpr hrange
    refine ⟨BitVec.ofInt 128 s.req.x, exec_i2b_of_inRange hin, rfl, rfl, fun i hi => ?byte, ?signBit⟩
    case byte =>
      have hhi : 8 * (15 - i) + 7 = 127 - 8 * i := by omega
      have hlo : 8 * (15 - i) = 120 - 8 * i := by omega
      rw [toNat_getElem_bufferOfPort _ hi, ← zext_eq_toNat_ofInt, hhi, hlo]
    case signBit =>
      rw [← getLsbD_top_eq_getElem_bufferOfPort, getLsbD_ofInt_of_inRange hin le_rfl (by norm_num),
        decide_eq_true_iff]
  case overflow => exact ⟨exec_of_not_inRange rfl (mt (inRange_iff _).mp hrange), rfl⟩

/-- Settles O12: each sub-word is the read of a quarter, which is what the helper gives for its four bytes, and each
word the read of a half. -/
theorem b2WByRule : Obligations.B2WByRule := by
  refine ⟨rfl, fun s => ⟨_, exec_eq_answer_responseOf .b2w s, rfl, ?quarters⟩⟩
  intro b
  have hchunk (k : Fin 4) : (memRead b (4 * k.val) 4 : Int) = quarterChunk b k := (quarterChunk_eq_memRead b k).symm
  obtain ⟨hiW0, hiW1, loW0, loW1⟩ := wireOfBuffer_toNat b
  exact ⟨⟨(congrArg Nat.cast hiW0).trans (hchunk 1), hiW0⟩, ⟨(congrArg Nat.cast hiW1).trans (hchunk 0), hiW1⟩,
    ⟨(congrArg Nat.cast loW0).trans (hchunk 3), loW0⟩, ⟨(congrArg Nat.cast loW1).trans (hchunk 2), loW1⟩,
    hiWord_wireOfBuffer b, loWord_wireOfBuffer b⟩

/-- Settles O13: the wire value is that of the integer's buffer, whose quarters are its sub-words and whose
two's-complement reading is the integer. -/
theorem i2WByRule : Obligations.I2WByRule := by
  refine ⟨rfl, fun s => ⟨fun hrange => ?ok, fun hrange => ?overflow⟩⟩
  case ok =>
    have hin : inRange s.req.x = true := (inRange_iff _).mpr hrange
    refine ⟨_, exec_i2w_of_inRange hin, rfl, ?quarters, ?spelled⟩
    case quarters =>
      rw [bufferOfBytes_bytesBe_zext]
      exact wireOfBuffer_toNat _
    case spelled => exact (integerOfWire_eq_words _).symm.trans (integerOfWire_wireOfBuffer_of_inRange hin)
  case overflow => exact ⟨exec_of_not_inRange rfl (mt (inRange_iff _).mp hrange), rfl⟩

/-- Settles O14: every read of the integer's buffer is a bit field of `u`, and the words are quotient and remainder
because they spell the integer. -/
theorem i2WClosedForm : Obligations.I2WClosedForm := by
  intro s hrange
  have hin : inRange s.req.x = true := (inRange_iff _).mpr hrange
  refine ⟨_, exec_i2w_of_inRange hin, exec_i2wm_of_inRange hin, ?fields⟩
  have hspelled := integerOfWire_wireOfBuffer_of_inRange hin
  have hfield {i n : Nat} (hn : 0 < n) (h : i + n ≤ 16) := memRead_bufferOfPort_ofInt s.req.x hn h
  generalize bufferOfPort (BitVec.ofInt 128 s.req.x) = b at hspelled hfield ⊢
  obtain ⟨hiW0, hiW1, loW0, loW1⟩ := wireOfBuffer_toNat b
  have hhi := hiWord_wireOfBuffer b
  have hlo := loWord_wireOfBuffer b
  rw [hfield (by norm_num) (by norm_num)] at hiW0 hiW1 loW0 loW1 hhi hlo
  have hasr := hiWord_eq_asr (wireOfBuffer b)
  have hmod := loWord_eq_emod (wireOfBuffer b)
  rw [hspelled] at hasr hmod
  exact ⟨hiW1, hiW0, loW1, loW0, hhi, hasr, hlo, hmod⟩

end

section
/-!
PROOFS. The mask path of 41_mask_path.md: the two words of its formula on every integer, and the rules of I2WM inside
the range (R48) and of the formula outside it (R49).
-/

namespace Sys2Proof.Machine

/-! ### The arithmetic shift as floor division -/

theorem fdiv_two_pow_eq_asr (v : Int) (n : Nat) : Int.fdiv v (2 ^ n) = asr v n :=
  Int.fdiv_eq_ediv_of_nonneg v (by positivity)

theorem natCast_zext (n : Nat) (v : Int) : (zext n v : Int) = v % 2 ^ n :=
  Int.toNat_of_nonneg (Int.emod_nonneg v (by positivity))

/-! ### The words of the formula -/

theorem loWord_wireByMask (v : Int) : loWord (wireByMask v) = zext 64 v :=
  loWord_wireOfWords (zext_lt 64 v)

theorem hiPattern_wireByMask (v : Int) : hiPattern (wireByMask v) = zext 64 (asr v 64) :=
  hiPattern_wireOfWords (zext_lt 64 (asr v 64))

theorem hiWord_wireByMask (v : Int) : hiWord (wireByMask v) = signed 64 (zext 64 (asr v 64)) := by
  rw [hiWord, hiPattern_wireByMask]

/-- The formula wraps modulo `2^128`: its words spell the sign extension of the low 128 bits (R49). -/
theorem integerOfWire_wireByMask (v : Int) : integerOfWire (wireByMask v) = sext 128 v := by
  rw [integerOfWire_eq, wirePattern_wireByMask, sext_eq_toInt_ofInt (by norm_num)]

/-- In range nothing wraps, so the mask after the shift changes nothing but the reading (R48). -/
theorem hiWord_wireByMask_of_inRange {v : Int} (h : inRange v = true) : hiWord (wireByMask v) = asr v 64 := by
  rw [hiWord_eq_asr, integerOfWire_wireByMask, (inRange_iff_sext_eq v).mp h]

/-- Every sub-word is a half of the word it belongs to (R35). -/
theorem subWords_eq_bits (w : WireValue) :
    w.hiW0.toNat = bits (hiPattern w) 31 0 ∧ w.hiW1.toNat = bits (hiPattern w) 63 32 ∧
    w.loW0.toNat = bits (loWord w) 31 0 ∧ w.loW1.toNat = bits (loWord w) 63 32 :=
  ⟨(bits_assembled_lower _ _).symm, (bits_assembled_upper _ _).symm, (bits_assembled_lower _ _).symm,
    (bits_assembled_upper _ _).symm⟩

/-- I2WM answers the formula of the mask path itself, through no buffer. -/
theorem exec_i2wm_eq_wireByMask_of_inRange {s : State} (h : inRange s.req.x = true) :
    exec .i2wm s = .next (s.answer (.okWire (wireByMask s.req.x))) := by
  rw [exec_i2wm_of_inRange h, wireByMask_eq_wireOfBuffer]

/-- Out of range the block answers Overflow and nothing of the formula. -/
theorem exec_i2wm_of_out_of_range {s : State} (h : ¬ (-2 ^ 127 ≤ s.req.x ∧ s.req.x ≤ 2 ^ 127 - 1)) :
    exec .i2wm s = .next (s.answer .overflow) :=
  exec_of_not_inRange rfl (mt (inRange_iff _).mp h)

end Sys2Proof.Machine

open Sys2Proof.Machine

/-- Settles O15: in range the answer is the wire value of the formula, whose words are the masked ones and whose upper
word is the shifted integer because nothing wraps; out of range the guard answers Overflow. -/
theorem i2WMByRule : Obligations.I2WMByRule := by
  refine ⟨rfl, fun s => ⟨fun hrange => ?ok, fun hrange => ⟨exec_i2wm_of_out_of_range hrange, rfl⟩⟩⟩
  case ok =>
    have hin : inRange s.req.x = true := (inRange_iff _).mpr hrange
    refine ⟨_, exec_i2wm_eq_wireByMask_of_inRange hin, rfl, ?words⟩
    obtain ⟨hiW0, hiW1, loW0, loW1⟩ := subWords_eq_bits (wireByMask s.req.x)
    rw [hiPattern_wireByMask] at hiW0 hiW1
    rw [loWord_wireByMask] at loW0 loW1
    rw [fdiv_two_pow_eq_asr]
    exact ⟨hiW0, hiW1, loW0, loW1, hiWord_wireByMask _, hiWord_wireByMask_of_inRange hin, loWord_wireByMask _⟩

/-- Settles O42: on every integer the words are the masked ones and spell `sext_128(v)`; out of range the block
answers Overflow instead of them. -/
theorem unguardedMaskFormulaWraps : Obligations.UnguardedMaskFormulaWraps := by
  refine ⟨fun v => ⟨?lo, ?hi, integerOfWire_wireByMask v⟩, by decide, by decide, by decide, by decide,
    fun s hrange => exec_i2wm_of_out_of_range hrange⟩
  case lo => rw [loWord_wireByMask, natCast_zext]
  case hi => rw [hiWord_wireByMask, fdiv_two_pow_eq_asr, zext]

end

section
/-!
PROOFS. The decode path of 42_decode_path.md: what W2I, W2B and B2I answer, as readings of one 128-bit pattern (R50 to
R52), and that every such reading is in range, so that none of them overflows (R53).
-/

namespace Sys2Proof.Machine

/-! ### The answers of the decode operations -/

theorem exec_w2i (s : State) : exec .w2i s = .next (s.answer (.okInteger (integerOfWire s.req.wi))) :=
  exec_eq_answer_responseOf .w2i s

theorem exec_w2b (s : State) : exec .w2b s = .next (s.answer (.okBuffer (wirePattern s.req.wi))) :=
  exec_eq_answer_responseOf .w2b s

theorem exec_b2i (s : State) :
    exec .b2i s = .next (s.answer (.okInteger (integerOfBuffer (bufferOfPort s.req.bi)))) :=
  exec_eq_answer_responseOf .b2i s

theorem responseOnPort_okInteger (xw : Nat) (y : Int) :
    responseOnPort xw (.okInteger y) = some (BitVec.ofInt xw y) :=
  congrArg some (portOfInteger_eq_ofInt xw y)

/-! ### The integer of a wire value (R50) -/

theorem integerOfWire_range (w : WireValue) : -2 ^ 127 ≤ integerOfWire w ∧ integerOfWire w ≤ 2 ^ 127 - 1 := by
  rw [← inRange_iff, integerOfWire_eq]
  exact inRange_toInt _

theorem integerOfWire_neg_iff (w : WireValue) : integerOfWire w < 0 ↔ w.hiW1.getLsbD 31 = true := by
  rw [integerOfWire_eq_words, words_neg_iff]

theorem sext_hiPattern (w : WireValue) : sext 64 (hiPattern w) = hiWord w := by
  rw [sext_eq_toInt_ofInt (by norm_num), BitVec.ofInt_natCast, hiWord_eq_toInt]

theorem ofInt_mul_two_pow (xw : Nat) (v : Int) (n : Nat) :
    BitVec.ofInt xw (v * 2 ^ n) = BitVec.ofInt xw v <<< n := by
  have hpow : BitVec.ofInt xw ((2 ^ n : Nat) : Int) = BitVec.twoPow xw n := by
    apply BitVec.eq_of_toNat_eq
    rw [BitVec.ofInt_natCast, BitVec.toNat_ofNat, BitVec.toNat_twoPow]
  rw [BitVec.ofInt_mul, ← BitVec.mul_twoPow_eq_shiftLeft, ← hpow, Nat.cast_pow, Nat.cast_ofNat]

/-- A pattern shifted left by `n` has no bit in common with a number of `n` bits: below `n` the one is zero, from `n`
up the other. -/
theorem shiftLeft_and_ofNat_eq_zero {xw : Nat} (p : BitVec xw) {n u : Nat} (hu : u < 2 ^ n) :
    p <<< n &&& BitVec.ofNat xw u = 0#xw := by
  apply BitVec.eq_of_getLsbD_eq
  intro j _
  rw [BitVec.getLsbD_and, BitVec.getLsbD_shiftLeft, BitVec.getLsbD_ofNat, BitVec.getLsbD_zero]
  by_cases hjn : j < n
  · simp [hjn]
  · have hbit : u.testBit j = false :=
      Nat.testBit_lt_two_pow (hu.trans_le (Nat.pow_le_pow_right (by norm_num) (not_lt.mp hjn)))
    simp [hbit]

/-- Above a summand of `n` bits, a multiple of `2^n` is joined on by the bitwise or (R110). -/
theorem ofInt_mul_two_pow_add (xw : Nat) (v : Int) {n u : Nat} (hu : u < 2 ^ n) :
    BitVec.ofInt xw (v * 2 ^ n + u) = BitVec.ofInt xw v <<< n ||| BitVec.ofNat xw u := by
  rw [BitVec.ofInt_add, ofInt_mul_two_pow, BitVec.ofInt_natCast,
    BitVec.add_eq_or_of_and_eq_zero _ _ (shiftLeft_and_ofNat_eq_zero _ hu)]

/-- The or-form of R50, on a port of any width. -/
theorem ofInt_integerOfWire (xw : Nat) (w : WireValue) :
    BitVec.ofInt xw (integerOfWire w) =
      (BitVec.ofNat 64 (hiPattern w)).signExtend xw <<< 64 ||| BitVec.ofNat xw (loWord w) := by
  rw [integerOfWire_eq_words, ofInt_mul_two_pow_add xw _ (loWord_lt w), hiWord_eq_toInt, BitVec.signExtend]

/-! ### The buffer of a wire value (R51) -/

/-- The port pattern W2B drives is that of the buffer its writes make, whatever the working buffer held. -/
theorem bufferOfPort_wirePattern (working : Buffer) (w : WireValue) :
    bufferOfPort (wirePattern w) = bufferOfWire working w := by
  rw [← portOfBuffer_bufferOfWire working w, bufferOfPort_portOfBuffer]

theorem getLsbD_top_bufferOfPort_wirePattern (w : WireValue) :
    (bufferOfPort (wirePattern w))[0].getLsbD 7 = w.hiW1.getLsbD 31 := by
  rw [← getLsbD_top_eq_getElem_bufferOfPort, ← msb_wirePattern, BitVec.msb_eq_getLsbD_last]

/-! ### The integer of a buffer (R52) -/

theorem integerOfBuffer_bufferOfPort (p : BufferPort) : integerOfBuffer (bufferOfPort p) = p.toInt := by
  rw [integerOfBuffer_eq, portOfBuffer_bufferOfPort]

theorem integerOfBuffer_range (b : Buffer) : -2 ^ 127 ≤ integerOfBuffer b ∧ integerOfBuffer b ≤ 2 ^ 127 - 1 := by
  rw [← inRange_iff, integerOfBuffer_eq]
  exact inRange_toInt _

/-- The sign bit of the first byte weighs `-2^127`: where it is set, the reading is `U(B) - 2^128`. -/
theorem integerOfBuffer_eq_ite (b : Buffer) :
    integerOfBuffer b =
      if b[0].getLsbD 7 = true then (memRead b 0 16 : Int) - 2 ^ 128 else (memRead b 0 16 : Int) := by
  have hsign : (portOfBuffer b).msb = b[0].getLsbD 7 := by
    rw [BitVec.msb_eq_getLsbD_last, getLsbD_top_eq_getElem_bufferOfPort, bufferOfPort_portOfBuffer]
  rw [integerOfBuffer_eq, BitVec.toInt_eq_msb_cond, hsign, toNat_portOfBuffer, memRead_whole]
  norm_cast

end Sys2Proof.Machine

open Sys2Proof.Machine

/-- Settles O16: the answer is the integer of the two words, whose pattern is the or-form because `lo` fits below the
shifted `hi`; its range and sign are those of the 128-bit pattern. -/
theorem w2IByRule : Obligations.W2IByRule := by
  refine ⟨rfl, fun s => ⟨_, exec_w2i s, rfl, ⟨rfl, sext_hiPattern s.req.wi, fun xw _ => ?orForm⟩, ?rangeAndSign⟩⟩
  case orForm => exact (responseOnPort_okInteger xw _).trans (congrArg some (ofInt_integerOfWire xw s.req.wi))
  case rangeAndSign =>
    obtain ⟨hmin, hmax⟩ := integerOfWire_range s.req.wi
    exact ⟨hmin, hmax, integerOfWire_neg_iff s.req.wi⟩

/-- Settles O17: `BO` is the 128-bit pattern of the wire value, and its buffer is the one the four writes make. -/
theorem w2BByRule : Obligations.W2BByRule := by
  refine ⟨rfl, fun s => ⟨_, exec_w2b s, rfl, ?buffer⟩⟩
  have hvalue := (bufferValue_bufferOfPort _).trans (toNat_wirePattern s.req.wi)
  have hsign := getLsbD_top_bufferOfPort_wirePattern s.req.wi
  have hquarters := memRead_bufferOfWire s.working s.req.wi
  rw [← bufferOfPort_wirePattern] at hquarters
  obtain ⟨hiW1, hiW0, loW1, loW0⟩ := hquarters
  exact ⟨hiW1, hiW0, loW1, loW0, hvalue, hsign⟩

/-- Settles O18: the reading of the whole buffer is the two's-complement reading of `BI`, whose pattern at a greater
width is the sign extension. -/
theorem b2IByRule : Obligations.B2IByRule := by
  refine ⟨rfl, fun s => ⟨_, exec_b2i s, rfl, ⟨rfl, integerOfBuffer_eq_ite _⟩,
    integerOfBuffer_bufferOfPort s.req.bi, ?rangeAndPort⟩⟩
  obtain ⟨hmin, hmax⟩ := integerOfBuffer_range (bufferOfPort s.req.bi)
  refine ⟨hmin, hmax, fun xw _ => ?_⟩
  rw [responseOnPort_okInteger, integerOfBuffer_bufferOfPort, BitVec.signExtend]

/-- Settles O23: each operation answers `Ok` in every state, with an integer in range where it answers one; the ends of
the range are the integers of the least and the greatest pair of words. -/
theorem decodePathNeverOverflows : Obligations.DecodePathNeverOverflows := by
  refine ⟨fun s => ⟨⟨_, exec_w2i s, integerOfWire_range _⟩, ⟨_, exec_w2b s⟩, ⟨_, exec_b2i s, integerOfBuffer_range _⟩⟩,
    fun s hhi hlo => ?least, fun s hhi hlo => ?greatest⟩
  case least =>
    have hy : integerOfWire s.req.wi = -2 ^ 127 := by
      rw [integerOfWire_eq_words, hhi, hlo]
      norm_num
    rw [exec_w2i, hy]
    rfl
  case greatest =>
    have hy : integerOfWire s.req.wi = 2 ^ 127 - 1 := by
      rw [integerOfWire_eq_words, hhi, hlo]
      norm_num
    rw [exec_w2i, hy]
    rfl

end

section
/-!
PROOFS. The required properties and the laws of 45_properties.md (R100 to R104, R106 to R109). The three value types
are three readings of one 128-bit pattern, and an operation that does not overflow keeps the pattern: every round trip
and every way round the triangle is an equation between patterns.
-/

namespace Sys2Proof.Machine

/-! ### Which response an operation gives -/

/-- An operation gives a response exactly when `responseOf` does, because a recorded answer can be read back. -/
theorem exec_eq_next_answer_iff (i : Instr) (s : State) (rsp : Response) :
    exec i s = .next (s.answer rsp) ↔ responseOf i s.req = rsp := by
  rw [exec_eq_answer_responseOf]
  simp [State.answer]

theorem exec_eq_overflow_iff (i : Instr) (s : State) :
    exec i s = .next (s.answer .overflow) ↔ i.canOverflow = true ∧ ¬ inRange s.req.x = true := by
  refine ⟨fun h => ?_, fun ⟨hi, hout⟩ => exec_of_not_inRange hi hout⟩
  rw [exec_eq_next_answer_iff] at h
  cases i with
  | i2b | i2w | i2wm =>
    refine ⟨rfl, fun hin => ?_⟩
    rw [responseOf, if_pos hin] at h
    cases h
  | b2w | w2i | w2b | b2i => cases h

theorem statusOf_eq_zero_of_ne_overflow {rsp : Response} (h : rsp ≠ .overflow) : statusOf rsp = 0#1 := by
  cases rsp with
  | okBuffer | okWire | okInteger => rfl
  | overflow => exact absurd rfl h

theorem reads_of_canOverflow {i : Instr} (h : i.canOverflow = true) : i.reads = [.x] := by
  cases i with
  | i2b | i2w | i2wm => rfl
  | b2w | w2i | w2b | b2i => cases h

/-- The two encode paths answer every request alike: the check is the same, and so is the wire value. -/
theorem responseOf_i2w_eq_i2wm (r : Request) : responseOf .i2w r = responseOf .i2wm r := by
  simp only [responseOf, wireByMask_eq_wireOfBuffer]

/-! ### The pattern each operation keeps -/

/-- An in-range integer and its pattern determine each other. -/
theorem inRange_and_ofInt_eq_iff (v : Int) (p : BitVec 128) :
    (inRange v = true ∧ BitVec.ofInt 128 v = p) ↔ v = p.toInt := by
  constructor
  · rintro ⟨hin, rfl⟩
    exact (toInt_ofInt_of_inRange hin).symm
  · rintro rfl
    exact ⟨inRange_toInt p, BitVec.ofInt_toInt⟩

theorem wireByMask_eq_iff (v : Int) (w : WireValue) : wireByMask v = w ↔ BitVec.ofInt 128 v = wirePattern w := by
  rw [← wirePattern_wireByMask]
  exact ⟨congrArg wirePattern, wirePattern_injective⟩

theorem exec_i2b_eq_okBuffer_iff (s : State) (p : BufferPort) :
    exec .i2b s = .next (s.answer (.okBuffer p)) ↔ s.req.x = p.toInt := by
  rw [exec_eq_next_answer_iff, ← inRange_and_ofInt_eq_iff, responseOf]
  cases inRange s.req.x <;> simp

/-- By either path an integer encodes to a wire value exactly when it is the reading of its pattern. -/
theorem exec_encode_eq_okWire_iff {i : Instr} (hi : i = .i2w ∨ i = .i2wm) (s : State) (w : WireValue) :
    exec i s = .next (s.answer (.okWire w)) ↔ s.req.x = (wirePattern w).toInt := by
  have hmask : responseOf i s.req = responseOf .i2wm s.req := by
    rcases hi with rfl | rfl
    · exact responseOf_i2w_eq_i2wm s.req
    · rfl
  rw [exec_eq_next_answer_iff, hmask, ← inRange_and_ofInt_eq_iff, ← wireByMask_eq_iff, responseOf]
  cases inRange s.req.x <;> simp

theorem exec_b2w_eq_okWire_iff (s : State) (w : WireValue) :
    exec .b2w s = .next (s.answer (.okWire w)) ↔ s.req.bi = wirePattern w := by
  have hpattern : wirePattern (wireOfBuffer (bufferOfPort s.req.bi)) = s.req.bi := by
    rw [wirePattern_wireOfBuffer, portOfBuffer_bufferOfPort]
  rw [exec_eq_next_answer_iff, responseOf, Response.okWire.injEq]
  exact ⟨fun h => by rw [← h, hpattern], fun h => wirePattern_injective (hpattern.trans h)⟩

theorem exec_w2b_eq_okBuffer_iff (s : State) (p : BufferPort) :
    exec .w2b s = .next (s.answer (.okBuffer p)) ↔ wirePattern s.req.wi = p := by
  rw [exec_eq_next_answer_iff, responseOf, Response.okBuffer.injEq]

theorem exec_w2i_eq_okInteger_iff (s : State) (y : Int) :
    exec .w2i s = .next (s.answer (.okInteger y)) ↔ (wirePattern s.req.wi).toInt = y := by
  rw [exec_eq_next_answer_iff, responseOf, Response.okInteger.injEq, integerOfWire_eq]

theorem exec_b2i_eq_okInteger_iff (s : State) (y : Int) :
    exec .b2i s = .next (s.answer (.okInteger y)) ↔ s.req.bi.toInt = y := by
  rw [exec_eq_next_answer_iff, responseOf, Response.okInteger.injEq, integerOfBuffer_bufferOfPort]

/-! ### Every pattern and every in-range integer has its wire value -/

theorem exists_wire_of_pattern (p : BitVec 128) : ∃ w, wirePattern w = p :=
  ⟨wireOfBuffer (bufferOfPort p), by rw [wirePattern_wireOfBuffer, portOfBuffer_bufferOfPort]⟩

theorem eq_toInt_wireByMask {v : Int} (h : -2 ^ 127 ≤ v ∧ v ≤ 2 ^ 127 - 1) :
    v = (wirePattern (wireByMask v)).toInt := by
  rw [wirePattern_wireByMask, toInt_ofInt_of_inRange ((inRange_iff v).mpr h)]

theorem exists_wire_of_range {v : Int} (h : -2 ^ 127 ≤ v ∧ v ≤ 2 ^ 127 - 1) : ∃ w, v = (wirePattern w).toInt :=
  ⟨wireByMask v, eq_toInt_wireByMask h⟩

/-- The value of the two words is the two's-complement reading of the pattern. -/
theorem toInt_wirePattern (w : WireValue) : (wirePattern w).toInt = hiWord w * 2 ^ 64 + loWord w := by
  rw [← integerOfWire_eq, integerOfWire_eq_words]

/-! ### The sign bit -/

theorem getLsbD_top_bufferOfPort_eq_sign (p : BufferPort) :
    (bufferOfPort p)[0].getLsbD 7 = decide (p.toInt < 0) := by
  rw [← getLsbD_top_eq_getElem_bufferOfPort, ← BitVec.msb_eq_toInt, BitVec.msb_eq_getLsbD_last]

theorem getLsbD_top_hiW1_eq_sign (w : WireValue) : w.hiW1.getLsbD 31 = decide ((wirePattern w).toInt < 0) := by
  rw [← msb_wirePattern, BitVec.msb_eq_toInt]

theorem hiWord_neg_iff (w : WireValue) : hiWord w < 0 ↔ (wirePattern w).toInt < 0 := by
  have hlt := loWord_lt w
  rw [toInt_wirePattern]
  omega

end Sys2Proof.Machine

open Sys2Proof.Machine

/-- Settles O24: the wire value is the one whose pattern reads as the integer, and W2I is that reading. -/
theorem encodeThenDecodeGivesTheIntegerBack : Obligations.EncodeThenDecodeGivesTheIntegerBack := by
  intro i s hi hrange
  obtain ⟨w, hw⟩ := exists_wire_of_range hrange
  refine ⟨w, (exec_encode_eq_okWire_iff hi s w).mpr hw, ?decode⟩
  rintro t rfl
  exact (exec_w2i_eq_okInteger_iff t _).mpr hw.symm

/-- Settles O25: the paths answer alike because their wire values have one pattern and their checks are one. -/
theorem bufferPathAgreesWithMaskPath : Obligations.BufferPathAgreesWithMaskPath := by
  intro s
  refine ⟨?agree, fun hrange => ?ok, fun hrange => (exec_eq_overflow_iff .i2w s).mpr ⟨rfl, ?overflow⟩⟩
  case agree => rw [exec_eq_answer_responseOf, exec_eq_answer_responseOf, responseOf_i2w_eq_i2wm]
  case ok =>
    obtain ⟨w, hw⟩ := exists_wire_of_range hrange
    exact ⟨w, (exec_encode_eq_okWire_iff (.inl rfl) s w).mpr hw⟩
  case overflow => exact mt (inRange_iff _).mp hrange

/-- Settles O26: the four literals are instances of the exact condition, two just outside the range and two at its
ends. -/
theorem overflowDetection : Obligations.OverflowDetection := by
  intro i s hi
  have hcan : i.canOverflow = true := by rcases hi with rfl | rfl | rfl <;> rfl
  have hexact : exec i s = .next (s.answer .overflow) ↔ ¬ (-2 ^ 127 ≤ s.req.x ∧ s.req.x ≤ 2 ^ 127 - 1) := by
    rw [exec_eq_overflow_iff, inRange_iff, and_iff_right hcan]
  refine ⟨fun hx => hexact.mpr (by omega), fun hx => hexact.mpr (by omega), fun hx => ?ends, hexact⟩
  refine ⟨_, exec_eq_answer_responseOf i s, statusOf_eq_zero_of_ne_overflow fun hover => ?_⟩
  have hout := hexact.mp ((exec_eq_next_answer_iff i s _).mpr hover)
  omega

/-- Settles O28: each of the bits is the sign of a 128-bit pattern that reads as the integer. -/
theorem signBitPlacement : Obligations.SignBitPlacement := by
  intro s hrange
  obtain ⟨w, hw⟩ := exists_wire_of_range hrange
  have hbuffer : (bufferOfPort (wirePattern w))[0].getLsbD 7 = decide (s.req.x < 0) := by
    rw [getLsbD_top_bufferOfPort_eq_sign, hw]
  refine ⟨⟨_, (exec_i2b_eq_okBuffer_iff s _).mpr hw, hbuffer⟩,
    ⟨w, (exec_encode_eq_okWire_iff (.inl rfl) s w).mpr hw, ?hiW1, ?hi, ?rebuilt⟩⟩
  case hiW1 => rw [getLsbD_top_hiW1_eq_sign, hw]
  case hi => rw [hiWord_neg_iff, hw]
  case rebuilt =>
    rintro t rfl
    exact ⟨_, exec_w2b t, hbuffer⟩

/-- Settles O30: encoding to a wire value is the same as being the reading of its pattern, which W2I answers. -/
theorem decodeThenEncodeGivesTheWireValueBack : Obligations.DecodeThenEncodeGivesTheWireValueBack := by
  intro s
  obtain ⟨hmin, hmax⟩ := (inRange_iff _).mp (inRange_toInt (wirePattern s.req.wi))
  exact ⟨_, (exec_w2i_eq_okInteger_iff s _).mpr rfl, hmin, hmax,
    fun t hy => ⟨(exec_encode_eq_okWire_iff (.inl rfl) t _).mpr hy,
      (exec_encode_eq_okWire_iff (.inr rfl) t _).mpr hy⟩,
    fun t => (exec_encode_eq_okWire_iff (.inl rfl) t _).mp⟩

/-- Settles O31: B2W and W2B keep the pattern, I2B and B2I take it from its reading and read it. -/
theorem bufferConversionsAreInverse : Obligations.BufferConversionsAreInverse := by
  refine ⟨fun s => ?w2bAfterB2w, fun s => ?b2wAfterW2b, fun s hrange => ?b2iAfterI2b, fun s => ?i2bAfterB2i⟩
  case w2bAfterB2w =>
    obtain ⟨w, hw⟩ := exists_wire_of_pattern s.req.bi
    refine ⟨w, (exec_b2w_eq_okWire_iff s w).mpr hw.symm, ?_⟩
    rintro t rfl
    exact (exec_w2b_eq_okBuffer_iff t _).mpr hw
  case b2wAfterW2b => exact ⟨_, exec_w2b s, fun t => (exec_b2w_eq_okWire_iff t _).mpr⟩
  case b2iAfterI2b =>
    have hread := toInt_ofInt_of_inRange ((inRange_iff _).mpr hrange)
    refine ⟨_, (exec_i2b_eq_okBuffer_iff s _).mpr hread.symm, fun t ht => ?_⟩
    exact (exec_b2i_eq_okInteger_iff t _).mpr (ht ▸ hread)
  case i2bAfterB2i =>
    exact ⟨_, (exec_b2i_eq_okInteger_iff s _).mpr rfl, fun t => (exec_i2b_eq_okBuffer_iff t _).mpr⟩

/-- Settles O32: from each corner the two ways go to the same pattern, and the last clause is the exact condition of
Overflow. -/
theorem triangleCommutes : Obligations.TriangleCommutes := by
  refine ⟨fun s hrange => ?fromInteger, fun s => ?fromWire, fun s => ?fromBuffer, fun i s hover => ?overflow⟩
  case fromInteger =>
    obtain ⟨w, hw⟩ := exists_wire_of_range hrange
    refine ⟨_, w, (exec_i2b_eq_okBuffer_iff s _).mpr hw, (exec_encode_eq_okWire_iff (.inl rfl) s w).mpr hw,
      fun t => (exec_b2w_eq_okWire_iff t w).mpr, ?_⟩
    rintro t rfl
    exact exec_w2b t
  case fromWire =>
    exact ⟨_, _, exec_w2b s, (exec_w2i_eq_okInteger_iff s _).mpr rfl,
      fun t ht => (exec_b2i_eq_okInteger_iff t _).mpr (congrArg BitVec.toInt ht),
      fun t => (exec_i2b_eq_okBuffer_iff t _).mpr⟩
  case fromBuffer =>
    obtain ⟨w, hw⟩ := exists_wire_of_pattern s.req.bi
    refine ⟨w, _, (exec_b2w_eq_okWire_iff s w).mpr hw.symm, (exec_b2i_eq_okInteger_iff s _).mpr rfl, ?_,
      fun t ht => (exec_encode_eq_okWire_iff (.inl rfl) t w).mpr (hw ▸ ht)⟩
    rintro t rfl
    exact (exec_w2i_eq_okInteger_iff t _).mpr (congrArg BitVec.toInt hw)
  case overflow =>
    obtain ⟨hcan, hout⟩ := (exec_eq_overflow_iff i s).mp hover
    exact ⟨reads_of_canOverflow hcan, mt (inRange_iff _).mpr hout⟩

/-- Settles O33: the words spell the integer with `lo` below `2^64`, which is what makes them quotient and remainder
and leaves no other pair. -/
theorem wireValueIsFloorDivision : Obligations.WireValueIsFloorDivision := by
  intro s hrange
  obtain ⟨w, hw⟩ := exists_wire_of_range hrange
  have hencode {i : Sys2Proof.Instr} (hi : i = .i2w ∨ i = .i2wm) := (exec_encode_eq_okWire_iff hi s w).mpr hw
  refine ⟨w, hencode (.inl rfl), hencode (.inr rfl), ?words⟩
  have hlo := loWord_lt w
  obtain ⟨hmin, hmax⟩ := hiWord_range w
  have hquotient : hiWord w = Int.fdiv s.req.x (2 ^ 64) := by
    rw [fdiv_two_pow_eq_asr, hw, ← integerOfWire_eq, hiWord_eq_asr]
  have hremainder : (loWord w : Int) = Int.fmod s.req.x (2 ^ 64) := by
    rw [Int.fmod_eq_emod_of_nonneg _ (by norm_num), hw, ← integerOfWire_eq, loWord_eq_emod]
  rw [toInt_wirePattern] at hw
  exact ⟨hquotient, hremainder, hw, hlo, hmin, hmax, fun h l hx hl0 hl => by omega, by omega⟩

/-- Settles O27: the wire value is that of the mask formula, evaluated at the three integers. -/
theorem zeroAndBoundaryLiterals : Obligations.ZeroAndBoundaryLiterals := by
  intro i s hi
  refine ⟨wireByMask s.req.x, fun hx => ?encodes, ?zero, ?one, ?minusOne⟩
  case encodes =>
    exact (exec_encode_eq_okWire_iff hi s _).mpr (eq_toInt_wireByMask (by omega))
  all_goals
    intro hx
    rw [hx]
    decide

end

section
/-!
PROOFS. The Overflow error of 60_exceptions.md: the operations that can raise it, and the status of a response (R61).
-/

namespace Sys2Proof.Machine

/-- The last column of R31 marks the operations of R61. -/
theorem canOverflow_iff (i : Instr) : i.canOverflow = true ↔ i = .i2b ∨ i = .i2w ∨ i = .i2wm := by
  cases i with
  | i2b | i2w | i2wm => simp [Instr.canOverflow]
  | b2w | w2i | w2b | b2i => simp [Instr.canOverflow]

theorem responseOf_eq_overflow_iff (i : Instr) (s : State) :
    responseOf i s.req = .overflow ↔ i.canOverflow = true ∧ ¬ inRange s.req.x = true :=
  (exec_eq_next_answer_iff i s .overflow).symm.trans (exec_eq_overflow_iff i s)

theorem statusOf_eq_one_iff (rsp : Response) : statusOf rsp = 1#1 ↔ rsp = .overflow := by
  refine ⟨fun hst => ?raised, fun hover => hover ▸ rfl⟩
  case raised =>
    by_contra hne
    rw [statusOf_eq_zero_of_ne_overflow hne] at hst
    exact absurd hst (by decide)

@[simp] theorem drives_overflow : Response.overflow.drives = [] := rfl

end Sys2Proof.Machine

open Sys2Proof.Machine

/-- Settles O19: the one answer of an operation is `responseOf`, which is Overflow exactly when the range check of an
operation that has one fails; the status tells Overflow from every `Ok` response. -/
theorem overflowRaisedExactly : Obligations.OverflowRaisedExactly := by
  intro i s
  refine ⟨responseOf i s.req, exec_eq_answer_responseOf i s, ?exactly, statusOf_eq_one_iff _,
    fun hover => hover ▸ drives_overflow⟩
  case exactly => rw [responseOf_eq_overflow_iff, canOverflow_iff, inRange_iff]

end

section
/-!
PROOFS. Runs of transactions (70_reset_and_hazards.md R74, R80 to R82, 10_state.md R10). The contract of an operation
leaves no choice: the one response that honours it is `responseOf`. So a run whose every step delivers `responseOf`
honours its contracts, and one that honours them has answered equal requests alike.
-/

namespace Sys2Proof.Machine

/-! ### The contracts -/

/-- The contract of an encode operation asks for a result whose pattern reads as the integer; where one result `a` alone
carries the integer's pattern, that is to ask for `a`. -/
theorem encodeContract_iff {α : Type} {ok : α → Response} {pattern : α → BitVec 128} {v : Int} {a : α}
    (ha : ∀ b, pattern b = BitVec.ofInt 128 v ↔ b = a) (rsp : Response) :
    (if -2 ^ 127 ≤ v ∧ v ≤ 2 ^ 127 - 1 then ∃ b, rsp = ok b ∧ (pattern b).toInt = v else rsp = .overflow) ↔
      rsp = if inRange v then ok a else .overflow := by
  by_cases hin : inRange v = true
  · have hread (b : α) : (pattern b).toInt = v ↔ b = a := by
      rw [← ha, eq_comm, ← inRange_and_ofInt_eq_iff, and_iff_right hin, eq_comm]
    rw [if_pos ((inRange_iff v).mp hin), if_pos hin]
    simp only [hread, exists_eq_right]
  · rw [if_neg (mt (inRange_iff v).mpr hin), if_neg hin]

/-- Exactly one response honours the contract of an operation. -/
theorem contract_iff (i : Instr) (r : Request) (rsp : Response) : Contract i r rsp ↔ rsp = responseOf i r := by
  have hwire (v : Int) (w : WireValue) : wirePattern w = BitVec.ofInt 128 v ↔ w = wireByMask v := by
    rw [eq_comm, ← wireByMask_eq_iff, eq_comm]
  cases i with
  | i2b => exact encodeContract_iff (pattern := id) (fun _ => Iff.rfl) rsp
  | i2w =>
    rw [responseOf_i2w_eq_i2wm]
    exact encodeContract_iff (hwire r.x) rsp
  | i2wm => exact encodeContract_iff (hwire r.x) rsp
  | b2w =>
    have hpattern : wirePattern (wireOfBuffer (bufferOfPort r.bi)) = r.bi := by
      rw [wirePattern_wireOfBuffer, portOfBuffer_bufferOfPort]
    constructor
    · rintro ⟨w, rfl, hw⟩
      exact congrArg Response.okWire (wirePattern_injective (hw.trans hpattern.symm))
    · rintro rfl
      exact ⟨_, rfl, hpattern⟩
  | w2i => rw [Contract, responseOf, integerOfWire_eq]
  | w2b => exact Iff.rfl
  | b2i => rw [Contract, responseOf, integerOfBuffer_bufferOfPort]

/-- The invariant speaks of the record alone, so one more honoured transaction in it is all there is to check. -/
theorem honouredRun_of_done_append {s t : State} {d : Transaction} {i : Instr} (hs : HonouredRun s)
    (hdone : t.done = s.done ++ [d]) (hdec : decode d.request.op = .ok i)
    (hd : Contract i d.request d.response) : HonouredRun t := by
  intro d' hd'
  rw [hdone, List.mem_append, List.mem_singleton] at hd'
  rcases hd' with hold | rfl
  · exact hs d' hold
  · exact ⟨i, hdec, hd⟩

/-! ### Legal requests -/

theorem request_wf_iff (r : Request) : r.wf = true ↔ r.op ≠ 0#3 := bne_iff_ne

/-- The step of a legal request delivers the response it gets alone. -/
theorem step_of_legal {s : State} {r : Request} {rest : List Request} (hreq : s.requests = r :: rest)
    (hop : r.op ≠ 0#3) :
    ∃ rsp, respond r = some rsp ∧
      step s = .next { req := r, requests := rest, done := s.done ++ [⟨r, rsp⟩] } := by
  obtain ⟨i, hdec⟩ := exists_decode_eq_ok hop
  exact ⟨responseOf i r, respond_of_decode hdec, step_of_decode hreq hdec⟩

theorem legalRun_iff_of_requests_cons {s : State} {r : Request} {rest : List Request}
    (hreq : s.requests = r :: rest) : LegalRun s ↔ r.wf = true ∧ ∀ r' ∈ rest, r'.wf = true := by
  rw [LegalRun, hreq, List.forall_mem_cons]

/-! ### Whole runs -/

/-- A transaction, with its response as `respond` gives one; no two transactions look alike in this form. -/
def Transaction.asRespond (d : Transaction) : Request × Option Response := (d.request, some d.response)

theorem asRespond_injective : Function.Injective Transaction.asRespond := by
  rintro ⟨r, rsp⟩ ⟨r', rsp'⟩ h
  simpa [Transaction.asRespond] using h

/-- A legal run serves its requests one after another, each as if it were alone. -/
theorem run_of_legalRun {s : State} (hs : LegalRun s) :
    ∃ (t : State) (l : List Transaction),
      Host.Core.run Sys2Proof.core s.requests.length s = .next t ∧ t.requests = [] ∧ t.done = s.done ++ l ∧
      l.map Transaction.asRespond = s.requests.map fun r => (r, respond r) := by
  induction hreq : s.requests generalizing s with
  | nil => exact ⟨s, [], run_zero s, hreq, (List.append_nil _).symm, rfl⟩
  | cons r rest ih =>
    obtain ⟨hr, hrest⟩ := (legalRun_iff_of_requests_cons hreq).mp hs
    obtain ⟨rsp, hrsp, hstep⟩ := step_of_legal hreq ((request_wf_iff r).mp hr)
    obtain ⟨t, l, hrun, hempty, hdone, hl⟩ :=
      ih (s := { req := r, requests := rest, done := s.done ++ [⟨r, rsp⟩] }) hrest rfl
    refine ⟨t, ⟨r, rsp⟩ :: l, (run_succ_of_next rest.length hstep).trans hrun, hempty, ?answers, ?each⟩
    case answers => rw [hdone, List.append_assoc, List.singleton_append]
    case each => rw [List.map_cons, List.map_cons, hl, hrsp, Transaction.asRespond]

/-- A run that is not legal stops at its first request with the reserved code. -/
theorem run_of_not_legalRun {s : State} (hs : ¬ LegalRun s) :
    Host.Core.run Sys2Proof.core s.requests.length s = .refused .reservedOp := by
  induction hreq : s.requests generalizing s with
  | nil => exact absurd (fun r hr => absurd (hreq ▸ hr) List.not_mem_nil) hs
  | cons r rest ih =>
    by_cases hop : r.op = 0#3
    · exact run_succ_of_refused rest.length (step_of_reserved hreq hop)
    · obtain ⟨rsp, -, hstep⟩ := step_of_legal hreq hop
      have hrest : ¬ ∀ r' ∈ rest, r'.wf = true := fun hlegal =>
        hs ((legalRun_iff_of_requests_cons hreq).mpr ⟨(request_wf_iff r).mpr hop, hlegal⟩)
      exact (run_succ_of_next rest.length hstep).trans
        (ih (s := { req := r, requests := rest, done := s.done ++ [⟨r, rsp⟩] }) hrest rfl)

end Sys2Proof.Machine

open Sys2Proof.Machine

/-- Settles O50: a step that answers a next state either is idle or records one legal request with `responseOf`, the
response its contract owes it. -/
theorem stepKeepsContractsHonoured : Obligations.StepKeepsContractsHonoured := by
  intro s t hs hstep
  rcases step_cases s with ⟨-, hidle⟩ | ⟨r, rest, -, -, hrefused⟩ | ⟨r, rest, i, hreq, hdec, -⟩
  · cases hidle.symm.trans hstep
    exact hs
  · cases hrefused.symm.trans hstep
  · cases (step_of_decode hreq hdec).symm.trans hstep
    exact honouredRun_of_done_append hs rfl hdec ((contract_iff i r _).mpr rfl)

/-- Settles O51: equal requests select one operation, and its contract leaves one response. -/
theorem honouredAnswersAreUnique : Obligations.HonouredAnswersAreUnique := by
  intro s a b hs ha hb hreq
  obtain ⟨i, hdecA, hcontractA⟩ := hs a ha
  obtain ⟨j, hdecB, hcontractB⟩ := hs b hb
  rw [hreq] at hdecA hcontractA
  obtain rfl : i = j := Except.ok.inj (hdecA.symm.trans hdecB)
  exact ((contract_iff i _ _).mp hcontractA).trans ((contract_iff i _ _).mp hcontractB).symm

/-- Settles O52, by induction on the requests to come. -/
theorem runAnswersEachTransactionAsIfAlone : Obligations.RunAnswersEachTransactionAsIfAlone :=
  fun _ => ⟨run_of_legalRun, run_of_not_legalRun⟩

/-- Settles O53: each record is its requests with the responses they get alone, so a permutation of the requests is one
of the records. -/
theorem orderOfTransactionsDoesNotMatter : Obligations.OrderOfTransactionsDoesNotMatter := by
  intro s s' hs hdone hdone' hperm
  have hs' : LegalRun s' := fun r hr => hs r (hperm.mem_iff.mpr hr)
  obtain ⟨t, l, hrun, -, hl, hanswers⟩ := run_of_legalRun hs
  obtain ⟨t', l', hrun', -, hl', hanswers'⟩ := run_of_legalRun hs'
  refine ⟨t, t', hrun, hrun', ?_⟩
  rw [hl, hl', hdone, hdone', List.nil_append, List.nil_append, ← List.map_perm_map_iff asRespond_injective,
    hanswers, hanswers']
  exact hperm.map _

/-- Settles O54: both steps deliver the response the request gets alone. -/
theorem retryRepeatsTheResponse : Obligations.RetryRepeatsTheResponse := by
  intro s r rest hreq hop
  obtain ⟨i, hdec⟩ := exists_decode_eq_ok hop
  refine ⟨responseOf i r, ?_⟩
  rw [run_succ_of_next 1 (step_of_decode hreq hdec), run_succ_of_next 0 (step_of_decode rfl hdec), run_zero]
  simp

/-- Settles O4: the third case of a step. -/
theorem stepRunsDecodedOperation : Obligations.StepRunsDecodedOperation := by
  intro s r rest i hreq hdec
  rcases step_cases s with ⟨hnone, -⟩ | ⟨r', rest', hreq', hop, -⟩ | ⟨r', rest', j, hreq', hdec', hstep⟩
  · cases hnone.symm.trans hreq
  · cases hreq'.symm.trans hreq
    cases (decode_reserved hop).symm.trans hdec
  · cases hreq'.symm.trans hreq
    cases hdec'.symm.trans hdec
    exact hstep

/-- Settles O6: the first case of a step. -/
theorem emptyRunIsIdle : Obligations.EmptyRunIsIdle := by
  intro s hreq
  rcases step_cases s with ⟨-, hidle⟩ | ⟨r, rest, hreq', -⟩ | ⟨r, rest, i, hreq', -⟩
  · exact hidle
  · cases hreq'.symm.trans hreq
  · cases hreq'.symm.trans hreq

/-- Settles O8. -/
theorem nothingPendingAtReset : Obligations.NothingPendingAtReset :=
  ⟨State.reset_requests, State.reset_done⟩

/-- Settles O9. -/
theorem everyLegalTransactionIsAnswered : Obligations.EveryLegalTransactionIsAnswered := by
  intro s r rest hreq hop
  obtain ⟨rsp, -, hstep⟩ := step_of_legal hreq hop
  exact ⟨rsp, hstep⟩

/-- Settles O49: the record is empty. -/
theorem contractsHonouredAtReset : Obligations.ContractsHonouredAtReset := by
  intro d hd
  rw [State.reset_done] at hd
  exact absurd hd List.not_mem_nil

end

section
/-!
PROOFS. The operation select and the ports of 30_encoding.md: the codes of the table (R30, R36), the word a run fetches
(R39), the ports an operation reads and drives (R31, R37), and the Overflow response on them (R62).
-/

namespace Sys2Proof.Machine

/-! ### Codes (R30) -/

@[simp] theorem decode_encode (i : Instr) : decode (encode i) = .ok i := by
  cases i with
  | i2b | b2w | i2w | i2wm | w2i | w2b | b2i => rfl

theorem encode_eq_of_decode {op : BitVec 3} {i : Instr} (h : decode op = .ok i) : encode i = op := by
  revert op
  cases i with
  | i2b | b2w | i2w | i2wm | w2i | w2b | b2i => decide

theorem decode_eq_ok_iff (op : BitVec 3) (i : Instr) : decode op = .ok i ↔ op = encode i :=
  ⟨fun h => (encode_eq_of_decode h).symm, fun h => h ▸ decode_encode i⟩

theorem opWf_iff (op : BitVec 3) : opWf op = true ↔ op ≠ 0#3 := bne_iff_ne

theorem opWf_encode (i : Instr) : opWf (encode i) = true := by
  cases i with
  | i2b | b2w | i2w | i2wm | w2i | w2b | b2i => rfl

/-! ### Table words (R39, log entry 4) -/

theorem decodeTableWord_eq_some_iff (nbits w : Nat) (i : Instr) :
    decodeTableWord nbits w = some i ↔ decode (opOfTableWord nbits w) = .ok i := by
  rw [decodeTableWord]
  split
  · next j hdec => rw [hdec, Option.some.injEq, Except.ok.injEq]
  · next e hdec => simp [hdec]

/-- Where the table gives a word all bits of `OP`, those are its low three. -/
theorem opOfTableWord_eq_iff {nbits : Nat} (hn : 3 ≤ nbits) (w : Nat) (op : BitVec 3) :
    opOfTableWord nbits w = op ↔ w % 8 = op.toNat := by
  have hlow : w % 2 ^ nbits % 8 = w % 8 := Nat.mod_mod_of_dvd w (pow_dvd_pow 2 hn)
  rw [← BitVec.toNat_inj, opOfTableWord, BitVec.toNat_ofNat, hlow]

theorem requestsWithOp_nil {s : State} (h : s.requests = []) (op : BitVec 3) :
    requestsWithOp s op = [{ s.req with op := op }] := by
  rw [requestsWithOp, h]

theorem requestsWithOp_cons {s : State} {r : Request} {rest : List Request} (h : s.requests = r :: rest)
    (op : BitVec 3) : requestsWithOp s op = { r with op := op } :: rest := by
  rw [requestsWithOp, h]

/-- A step with a request for `i` next is `exec i` on it; the other fields of the state stay. -/
theorem step_eq_exec {s : State} {r : Request} {rest : List Request} {i : Instr} (hreq : s.requests = r :: rest)
    (hop : r.op = encode i) : step s = exec i (s.present r rest) := by
  have hdec : decode r.op = .ok i := (decode_eq_ok_iff _ _).mpr hop
  rw [step_of_decode hreq hdec, exec_eq_answer_responseOf]
  rfl

/-! ### Ports (R31, R37) -/

/-- The row of an operation bounds its response: the data ports of the row, or Overflow where the row allows it. -/
theorem drives_responseOf (i : Instr) (r : Request) :
    (statusOf (responseOf i r) = 0#1 ∧ (responseOf i r).drives = i.drives) ∨
      (statusOf (responseOf i r) = 1#1 ∧ responseOf i r = .overflow ∧ i.canOverflow = true) := by
  cases i with
  | i2b | i2w | i2wm =>
    rw [responseOf]
    split
    · exact .inl ⟨rfl, rfl⟩
    · exact .inr ⟨rfl, rfl, rfl⟩
  | b2w | w2i | w2b | b2i => exact .inl ⟨rfl, rfl⟩

theorem mem_drives_of_mem_drives_responseOf {i : Instr} {r : Request} {p : OutPort}
    (hp : p ∈ (responseOf i r).drives) : p ∈ i.drives := by
  rcases drives_responseOf i r with ⟨-, hdrives⟩ | ⟨-, hover, -⟩
  · exact hdrives ▸ hp
  · rw [hover, drives_overflow] at hp
    exact absurd hp List.not_mem_nil

/-- A data port has a value only where the response drives it. -/
theorem port_eq_none_of_not_driven (rsp : Response) :
    (OutPort.y ∉ rsp.drives → rsp.y = none) ∧ (OutPort.bo ∉ rsp.drives → rsp.bo = none) ∧
      (OutPort.woHiW0 ∉ rsp.drives → rsp.wo = none) := by
  cases rsp with
  | okBuffer | okWire | okInteger | overflow => simp [Response.drives, Response.y, Response.bo, Response.wo]

theorem wireValue_eq_of_subWords_eq {w w' : WireValue} (hiW0 : w.hiW0 = w'.hiW0) (hiW1 : w.hiW1 = w'.hiW1)
    (loW0 : w.loW0 = w'.loW0) (loW1 : w.loW1 = w'.loW1) : w = w' := by
  cases w
  cases w'
  simp_all only

/-- The response of an operation depends on no port but those it reads. -/
theorem responseOf_eq_of_agreeOnReads {i : Instr} {r r' : Request} (h : agreeOnReads i r r' = true) :
    responseOf i r = responseOf i r' := by
  have hport (p : InPort) (hp : p ∈ i.reads) : samePort p r r' = true := List.all_eq_true.mp h p hp
  cases i with
  | i2b | i2w | i2wm =>
    have hx : r.x = r'.x := eq_of_beq (hport .x (by decide))
    simp only [responseOf, hx]
  | b2w | b2i =>
    have hbi : r.bi = r'.bi := eq_of_beq (hport .bi (by decide))
    simp only [responseOf, hbi]
  | w2i | w2b =>
    have hwi : r.wi = r'.wi := wireValue_eq_of_subWords_eq (eq_of_beq (hport .wiHiW0 (by decide)))
      (eq_of_beq (hport .wiHiW1 (by decide))) (eq_of_beq (hport .wiLoW0 (by decide)))
      (eq_of_beq (hport .wiLoW1 (by decide)))
    simp only [responseOf, hwi]

end Sys2Proof.Machine

open Sys2Proof Sys2Proof.Machine

/-- Settles O3: the word selects the operation whose code its low three bits are. -/
theorem tableWordDecodedByItsLowBits : Obligations.TableWordDecodedByItsLowBits := by
  intro nbits w i hn
  rw [decodeTableWord_eq_some_iff, decode_eq_ok_iff, opOfTableWord_eq_iff hn]

/-- Settles O22: the response is `responseOf`, a function of the ports read, and drives no port outside the row. -/
theorem unreadPortsAreIgnored : Obligations.UnreadPortsAreIgnored := by
  intro i s s' hagree
  have hsame : exec i s' = .next (s'.answer (responseOf i s.req)) := by
    rw [exec_eq_answer_responseOf, responseOf_eq_of_agreeOnReads hagree]
  refine ⟨responseOf i s.req, exec_eq_answer_responseOf i s, hsame, ?_⟩
  obtain ⟨hy, hbo, hwo⟩ := port_eq_none_of_not_driven (responseOf i s.req)
  have hundriven {p : OutPort} (h : p ∉ i.drives ∨ responseOf i s.req = .overflow) :
      p ∉ (responseOf i s.req).drives := by
    rcases h with hrow | hover
    · exact fun hp => hrow (mem_drives_of_mem_drives_responseOf hp)
    · rw [hover, drives_overflow]
      exact List.not_mem_nil
  exact ⟨fun h => hy (hundriven h), fun h => hbo (hundriven h), fun h => hwo (hundriven (h.imp_left And.left))⟩

/-- Settles O1, row by row. -/
theorem codesOfTheTable : Obligations.CodesOfTheTable :=
  ⟨rfl, rfl, rfl, rfl, rfl, rfl, rfl, rfl⟩

/-- Settles O2. -/
theorem decodeAndEncodeAgree : Obligations.DecodeAndEncodeAgree :=
  ⟨fun i _ => ⟨decode_encode i, opWf_encode i⟩, fun _ _ => encode_eq_of_decode,
    fun op hop => exists_decode_eq_ok ((opWf_iff op).mp hop)⟩

/-- Settles O7: by whether a transaction is to come, the word replaces its code or presents the input ports anew. -/
theorem fetchWordIsRunNext : Obligations.FetchWordIsRunNext := by
  intro s nbits w i hn hw
  have hop : opOfTableWord nbits w = encode i := (opOfTableWord_eq_iff hn w _).mpr hw
  have hfetch : (s.withFetchWord nbits w).requests = requestsWithOp s (encode i) := by
    rw [State.withFetchWord_requests, hop]
  cases hreq : s.requests with
  | nil =>
    rw [requestsWithOp_nil hreq] at hfetch
    exact ⟨_, _, hfetch, rfl, fun _ => ⟨rfl, rfl⟩, fun _ _ h => (nomatch h), step_eq_exec hfetch rfl⟩
  | cons r₀ rest₀ =>
    rw [requestsWithOp_cons hreq] at hfetch
    refine ⟨_, _, hfetch, rfl, fun h => (nomatch h), fun r₁ rest₁ h => ?_, step_eq_exec hfetch rfl⟩
    cases h
    exact ⟨rfl, rfl⟩

/-- Settles O20: out of range the answer is Overflow, which has no value on any data port. -/
theorem overflowDelivery : Obligations.OverflowDelivery := by
  intro i s hi hrange
  have hover : exec i s = .next (s.answer .overflow) :=
    exec_of_not_inRange ((canOverflow_iff i).mpr hi) (mt (inRange_iff _).mp hrange)
  exact ⟨.overflow, hover, rfl, rfl, rfl, rfl⟩

/-- Settles O21. -/
theorem responseDrivesItsPorts : Obligations.ResponseDrivesItsPorts :=
  fun i s => ⟨_, exec_eq_answer_responseOf i s, drives_responseOf i s.req⟩

/-- Settles O29: the integer is the reading of the wire value's pattern. -/
theorem scaledAmountEncodes : Obligations.ScaledAmountEncodes := by
  intro s hx
  refine ⟨(exec_encode_eq_okWire_iff (.inl rfl) s _).mpr (hx.trans ?reading), by decide, by decide⟩
  case reading => decide

end

section
/-!
PROOFS. The buffer and the arithmetic of the block as formats: `U(B)` as a sum and its reading (R19), a write and the
reads after it (R18, R25), the working buffer (R67), the helper on a quarter (R43), the primitives of R110 and the least
width of the integer ports (R5).
-/

namespace Sys2Proof.Machine

/-! ### The buffer -/

theorem be_ofFn {n : Nat} (f : Fin n → Byte) :
    be (List.ofFn f) = ∑ i : Fin n, (f i).toNat * 2 ^ (8 * (n - 1 - i.val)) := by
  induction n with
  | zero => simp
  | succ n ih =>
    have hplace (i : Fin n) : n + 1 - 1 - i.succ.val = n - 1 - i.val := by
      rw [Fin.val_succ]
      omega
    rw [List.ofFn_succ, be_cons, ih, List.length_ofFn, Fin.sum_univ_succ]
    simp only [hplace, pow_mul]
    norm_num

theorem toList_eq_ofFn (b : Buffer) : b.toList = List.ofFn fun i : Fin 16 => b[i.val] := by
  rw [← Vector.toList_ofFn, Vector.ofFn_getElem]

/-- The buffer of a wire value does not depend on the working buffer: the four writes cover all of it. -/
theorem bufferOfWire_eq (working working' : Buffer) (w : WireValue) :
    bufferOfWire working w = bufferOfWire working' w :=
  (bufferOfPort_wirePattern working w).symm.trans (bufferOfPort_wirePattern working' w)

/-! ### Arithmetic (R110) -/

theorem asr_mul_le (v : Int) (n : Nat) : asr v n * 2 ^ n ≤ v :=
  Int.ediv_mul_le v (by positivity)

theorem lt_asr_add_one_mul (v : Int) (n : Nat) : v < (asr v n + 1) * 2 ^ n :=
  Int.lt_ediv_add_one_mul_self v (by positivity)

theorem sub_zext_emod (v : Int) (n : Nat) : (v - zext n v) % 2 ^ n = 0 := by
  rw [natCast_zext]
  exact Int.emod_eq_zero_of_dvd Int.dvd_self_sub_emod

theorem mul_two_pow_or {n l : Nat} (h : Nat) (hl : l < 2 ^ n) : h * 2 ^ n ||| l = h * 2 ^ n + l := by
  rw [← Nat.shiftLeft_eq, Nat.shiftLeft_add_eq_or_of_lt hl]

/-! ### The width of an integer port (R5) -/

/-- Only a port of at least `n + 2` bits presents `2^n`: a narrower one reads below it. -/
theorem add_two_le_of_integerOfPort_eq {xw n : Nat} {p : BitVec xw} (h : integerOfPort p = 2 ^ n) : n + 2 ≤ xw := by
  rcases Nat.eq_zero_or_pos xw with rfl | hxw
  · have hzero : integerOfPort p = 0 := by
      rw [BitVec.eq_nil p]
      decide
    rw [hzero] at h
    exact absurd h (by positivity)
  · have hlt : integerOfPort p < 2 ^ (xw - 1) := by
      rw [integerOfPort_eq_toInt hxw]
      exact BitVec.toInt_lt
    rw [h] at hlt
    have hexp : n < xw - 1 := (pow_lt_pow_iff_right₀ (by norm_num : (1 : Int) < 2)).mp hlt
    omega

theorem exists_port_of_fits {xw : Nat} {v : Int} (hxw : 1 ≤ xw) (hlo : -2 ^ (xw - 1) ≤ v)
    (hhi : v ≤ 2 ^ (xw - 1) - 1) : ∃ p : BitVec xw, integerOfPort p = v :=
  ⟨BitVec.ofInt xw v, by rw [integerOfPort_eq_toInt hxw, toInt_ofInt_of_fits hxw hlo hhi]⟩

end Sys2Proof.Machine

open Sys2Proof.Machine

/-- Settles O38: the buffer is the run of its 16 bytes, and `U(B)` the sum of the run. -/
theorem bufferIsBigEndian : Obligations.BufferIsBigEndian := by
  intro b
  constructor
  · rw [bufferValue, toList_eq_ofFn, be_ofFn]
  · rw [integerOfBuffer, memRead_whole]

/-- Settles O45: `2^127` already needs 129 bits, and 129 bits are enough for both. -/
theorem leastIntegerPortWidth : Obligations.LeastIntegerPortWidth := by
  intro xw
  rw [widthWf_iff]
  constructor
  · rintro ⟨⟨p, hp⟩, -⟩
    exact add_two_le_of_integerOfPort_eq hp
  · intro hxw
    have hpow : (2 : Int) ^ 128 ≤ 2 ^ (xw - 1) := pow_le_pow_right₀ (by norm_num) (by omega)
    exact ⟨exists_port_of_fits (by omega) (by omega) (by omega),
      exists_port_of_fits (by omega) (by omega) (by omega)⟩

/-- Settles O46: the laws hold at every width; the literals are evaluated. -/
theorem arithmeticPrimitives : Obligations.ArithmeticPrimitives := by
  refine ⟨fun v n => ⟨asr_mul_le v n, lt_asr_add_one_mul v n⟩, fun v n => ⟨zext_lt n v, sub_zext_emod v n⟩,
    fun h _ hl => mul_two_pow_or h hl, fun u hu => ⟨rfl, zext_signed (by norm_num) hu⟩,
    fun u hu => ⟨rfl, zext_signed (by norm_num) hu⟩, ?literals⟩
  decide

/-- Settles O48: both buffers are that of a port pattern in which the working buffer does not occur. -/
theorem workingBufferIsNeverSeen : Obligations.WorkingBufferIsNeverSeen :=
  ⟨fun b b' v => (bufferOfInteger_eq b v).trans (bufferOfInteger_eq b' v).symm, bufferOfWire_eq⟩

/-- Settles O40: the quarter is read whole, and four bytes spell less than `2^32`. -/
theorem quarterReadIsUnsigned : Obligations.QuarterReadIsUnsigned := by
  intro b k
  have hlt : (memRead b (4 * k.val) 4 : Int) < 2 ^ 32 := mod_cast memRead_lt b (4 * k.val) 4
  rw [quarterChunk_eq_memRead]
  exact ⟨rfl, Int.natCast_nonneg _, hlt⟩

/-- Settles O47. -/
theorem bufferReadAfterWrite : Obligations.BufferReadAfterWrite := by
  intro b i n u hin hu
  refine ⟨memRead_memWrite_same b i n u hin hu, fun j hj => getElem_memWrite_other b i n u j hj, fun j hj hi hn => ?_⟩
  rw [getElem_memWrite b i n u j hj, if_pos ⟨hi, hn⟩]

end

section
/-!
PROOFS. The I2B result built from the magnitude (40_buffer_path.md R41) and the legacy sign-magnitude procedure of its
section 6 (70_reset_and_hazards.md R79). Runs of one length are compared by the integers they spell.
-/

namespace Sys2Proof.Machine

/-! ### Runs and what they spell -/

theorem eq_of_be_eq {l l' : List Byte} (hlen : l.length = l'.length) (h : be l = be l') : l = l' := by
  rw [← bytesBe_be l, ← bytesBe_be l', hlen, h]

/-- A run padded with zero bytes to 16. -/
def padTo16 (l : List Byte) : List Byte := List.replicate (16 - l.length) 0#8 ++ l

theorem be_padTo16 (l : List Byte) : be (padTo16 l) = be l := by
  rw [padTo16, be_append, be_replicate_zero, Nat.zero_mul, Nat.zero_add]

theorem length_padTo16 {l : List Byte} (h : l.length ≤ 16) : (padTo16 l).length = 16 := by
  rw [padTo16, List.length_append, List.length_replicate, Nat.sub_add_cancel h]

theorem toList_bufferOfPort_eq_iff (p : BufferPort) {l : List Byte} (hlen : l.length = 16) :
    l = (bufferOfPort p).toList ↔ be l = p.toNat := by
  have hvalue : be (bufferOfPort p).toList = p.toNat := bufferValue_bufferOfPort p
  rw [← hvalue]
  exact ⟨congrArg be, eq_of_be_eq (by rw [hlen, Vector.length_toList])⟩

/-! ### Minimal runs (R41) -/

@[simp] theorem length_minimalBytes (m : Nat) : (minimalBytes m).length = minimalLength m :=
  length_bytesBe _ _

theorem minimalLength_pos (m : Nat) : 0 < minimalLength m := Nat.succ_pos _

/-- The minimal length of a magnitude is the least number of bytes, not zero, that hold it. -/
theorem minimalLength_le_iff (m : Nat) {n : Nat} (hn : 0 < n) : minimalLength m ≤ n ↔ m < 256 ^ n := by
  have hpow : 256 ^ n = 2 ^ (8 * n) := by
    rw [pow_mul]
    norm_num
  rcases Nat.eq_zero_or_pos m with rfl | hm
  · exact iff_of_true hn (by positivity)
  · rw [hpow, ← Nat.log2_lt hm.ne', minimalLength]
    omega

theorem lt_pow_minimalLength (m : Nat) : m < 256 ^ minimalLength m :=
  (minimalLength_le_iff m (minimalLength_pos m)).mp le_rfl

theorem be_minimalBytes (m : Nat) : be (minimalBytes m) = m := by
  rw [minimalBytes, be_bytesBe, Nat.mod_eq_of_lt (lt_pow_minimalLength m)]

theorem length_minimalBytes_le {l : List Byte} (hl : l ≠ []) : (minimalBytes (be l)).length ≤ l.length := by
  rw [length_minimalBytes, minimalLength_le_iff _ (List.length_pos_of_ne_nil hl)]
  exact be_lt l

/-! ### The magnitude of an in-range integer -/

theorem natAbs_lt_of_inRange {v : Int} (h : inRange v = true) : v.natAbs < 256 ^ 16 := by
  rw [inRange_iff] at h
  omega

theorem minimalLength_natAbs_le_of_inRange {v : Int} (h : inRange v = true) : minimalLength v.natAbs ≤ 16 :=
  (minimalLength_le_iff _ (by norm_num)).mpr (natAbs_lt_of_inRange h)

theorem toNat_ofInt_of_nonneg {v : Int} (h : inRange v = true) (hv : 0 ≤ v) :
    (BitVec.ofInt 128 v).toNat = v.natAbs := by
  rw [inRange_iff] at h
  rw [BitVec.toNat_ofInt]
  omega

theorem toNat_ofInt_of_neg {v : Int} (h : inRange v = true) (hv : v < 0) :
    (BitVec.ofInt 128 v).toNat = 2 ^ 128 - v.natAbs := by
  rw [inRange_iff] at h
  rw [BitVec.toNat_ofInt]
  omega

theorem padTo16_minimalBytes_of_nonneg {v : Int} (h : inRange v = true) (hv : 0 ≤ v) :
    padTo16 (minimalBytes v.natAbs) = (bufferOfPort (BitVec.ofInt 128 v)).toList := by
  have hlen : (minimalBytes v.natAbs).length ≤ 16 := by
    rw [length_minimalBytes]
    exact minimalLength_natAbs_le_of_inRange h
  rw [toList_bufferOfPort_eq_iff _ (length_padTo16 hlen), be_padTo16, be_minimalBytes, toNat_ofInt_of_nonneg h hv]

/-! ### The complement form of a negative integer (R41) -/

theorem ofInt_eq_not_of_neg (n : Nat) {v : Int} (hv : v < 0) :
    BitVec.ofInt n v = ~~~ BitVec.ofNat n (v.natAbs - 1) := by
  have hsucc : v = Int.negSucc (v.natAbs - 1) := by omega
  conv_lhs => rw [hsucc]
  exact BitVec.ofInt_negSucc_eq_not_ofNat

theorem getElem_bufferOfPort_eq_byteOf (p : BufferPort) {i : Nat} (h : i < 16) :
    (bufferOfPort p)[i] = byteOf 16 p.toNat i := by
  have hbyte : (bufferOfPort p).toList[i]'(by simpa using h) = (bytesBe 16 p.toNat)[i]'(by simpa using h) :=
    getElem_congr_coll (toList_bufferOfPort p)
  simpa [bytesBe] using hbyte

/-- The bytes of a complemented pattern are the complements of its bytes. -/
theorem toNat_getElem_bufferOfPort_not (p : BufferPort) {i : Nat} (h : i < 16) :
    (bufferOfPort (~~~p))[i].toNat = 255 - (bufferOfPort p)[i].toNat := by
  have hnot : (~~~p).extractLsb' (120 - 8 * i) 8 = ~~~ p.extractLsb' (120 - 8 * i) 8 := by
    apply BitVec.eq_of_getLsbD_eq
    intro j hj
    have hin : 120 - 8 * i + j < 128 := by omega
    simp [hj, hin]
  rw [getElem_bufferOfPort _ h, getElem_bufferOfPort _ h, hnot, BitVec.toNat_not]

/-! ### The legacy procedure (section 6) -/

theorem be_clearTopBit (l : List Byte) : be (clearTopBit l) = be l % 2 ^ (8 * l.length - 1) := by
  cases l with
  | nil => rfl
  | cons b bs =>
    have hpow : 2 ^ (8 * (b :: bs).length - 1) = 256 ^ bs.length * 128 := by
      rw [List.length_cons, show 8 * (bs.length + 1) - 1 = 8 * bs.length + 7 by omega, pow_add, pow_mul]
      norm_num
    have hpos : 0 < 256 ^ bs.length := by positivity
    have hlow : (b &&& 0x7F#8).toNat = b.toNat % 128 := by
      rw [BitVec.toNat_and]
      exact Nat.and_two_pow_sub_one_eq_mod b.toNat 7
    rw [clearTopBit, be_cons, be_cons, hlow, hpow, Nat.mod_mul, Nat.mul_add_mod_self_right,
      Nat.mod_eq_of_lt (be_lt bs), Nat.add_comm (b.toNat * _), Nat.add_mul_div_right _ _ hpos,
      Nat.div_eq_of_lt (be_lt bs), Nat.zero_add, Nat.add_comm, Nat.mul_comm]

theorem length_clearTopBit (l : List Byte) : (clearTopBit l).length = l.length := by
  cases l with
  | nil | cons => rfl

theorem length_setTopBit (l : List Byte) : (setTopBit l).length = l.length := by
  cases l with
  | nil | cons => rfl

/-- On a run that is not empty and whose top bit is clear, setting the top bit adds its weight. -/
theorem be_setTopBit {l : List Byte} (hl : l ≠ []) (h : be l < 2 ^ (8 * l.length - 1)) :
    be (setTopBit l) = 2 ^ (8 * l.length - 1) + be l := by
  cases l with
  | nil => exact absurd rfl hl
  | cons b bs =>
    have hpow : 2 ^ (8 * (b :: bs).length - 1) = 128 * 256 ^ bs.length := by
      rw [List.length_cons, show 8 * (bs.length + 1) - 1 = 7 + 8 * bs.length by omega, pow_add, pow_mul]
      norm_num
    rw [hpow, be_cons] at h
    have hb : b.toNat < 128 := Nat.lt_of_mul_lt_mul_right (lt_of_le_of_lt (Nat.le_add_right _ _) h)
    have htop : (b ||| 0x80#8).toNat = 128 + b.toNat := by
      rw [BitVec.toNat_or, Nat.or_comm]
      exact (Nat.two_pow_add_eq_or_of_lt (i := 7) hb 1).symm
    rw [setTopBit, be_cons, be_cons, htop, hpow]
    ring

/-- The run the legacy procedure makes for a negative integer of magnitude `m`. -/
def legacyNegativeRun (m : Nat) : List Byte := setTopBit (padTo16 (clearTopBit (minimalBytes m)))

theorem legacyBytes_of_nonneg {v : Int} (hlen : minimalLength v.natAbs ≤ 16) (hv : 0 ≤ v) :
    legacyBytes v = some (padTo16 (minimalBytes v.natAbs)) := by
  rw [legacyBytes, if_neg (by rw [length_minimalBytes]; omega), if_neg (not_lt.mpr hv), padTo16]

theorem legacyBytes_of_neg {v : Int} (hlen : minimalLength v.natAbs ≤ 16) (hv : v < 0) :
    legacyBytes v = some (legacyNegativeRun v.natAbs) := by
  rw [legacyBytes, if_neg (by rw [length_minimalBytes]; omega), if_pos hv, legacyNegativeRun, padTo16]

/-- The procedure reports overflow exactly where the minimal run is too long for the buffer. -/
theorem legacyBytes_eq_none_iff (v : Int) : legacyBytes v = none ↔ ¬ minimalLength v.natAbs ≤ 16 := by
  by_cases hlen : minimalLength v.natAbs ≤ 16
  · refine iff_of_false ?_ (not_not_intro hlen)
    rcases lt_or_ge v 0 with hv | hv
    · rw [legacyBytes_of_neg hlen hv]
      exact Option.some_ne_none _
    · rw [legacyBytes_of_nonneg hlen hv]
      exact Option.some_ne_none _
  · refine iff_of_true ?_ hlen
    rw [legacyBytes, if_pos (by rw [length_minimalBytes]; omega)]

theorem length_padTo16_clearTopBit_minimalBytes {m : Nat} (hlen : minimalLength m ≤ 16) :
    (padTo16 (clearTopBit (minimalBytes m))).length = 16 :=
  length_padTo16 (by rwa [length_clearTopBit, length_minimalBytes])

theorem length_legacyNegativeRun {m : Nat} (hlen : minimalLength m ≤ 16) : (legacyNegativeRun m).length = 16 := by
  rw [legacyNegativeRun, length_setTopBit, length_padTo16_clearTopBit_minimalBytes hlen]

/-- The legacy run is the sign bit and the magnitude, less the top bit of the magnitude's own minimal run. -/
theorem be_legacyNegativeRun {m : Nat} (hlen : minimalLength m ≤ 16) :
    be (legacyNegativeRun m) = 2 ^ 127 + m % 2 ^ (8 * minimalLength m - 1) := by
  have hlen16 := length_padTo16_clearTopBit_minimalBytes hlen
  have hbe : be (padTo16 (clearTopBit (minimalBytes m))) = m % 2 ^ (8 * minimalLength m - 1) := by
    rw [be_padTo16, be_clearTopBit, be_minimalBytes, length_minimalBytes]
  have hlt : m % 2 ^ (8 * minimalLength m - 1) < 2 ^ 127 :=
    (Nat.mod_lt m (by positivity)).trans_le (Nat.pow_le_pow_right (by norm_num) (by omega))
  have hne : padTo16 (clearTopBit (minimalBytes m)) ≠ [] := List.ne_nil_of_length_pos (by omega)
  rw [legacyNegativeRun, be_setTopBit hne (by rw [hlen16, hbe]; exact hlt), hlen16, hbe]

/-- Sign and magnitude spell the two's-complement pattern for two magnitudes alone: `2^126`, half of the range, and
`2^127`, whose top bit is lost and replaced by the sign. -/
theorem mod_top_eq_sub_iff {m : Nat} (hm : m ≤ 2 ^ 127) :
    2 ^ 127 + m % 2 ^ (8 * minimalLength m - 1) = 2 ^ 128 - m ↔ m = 2 ^ 127 ∨ m = 2 ^ 126 := by
  have hlen : minimalLength m ≤ 16 := (minimalLength_le_iff m (by norm_num)).mpr (by omega)
  rcases hlen.eq_or_lt with hfull | hshort
  · rw [hfull]
    omega
  · have hsmall : m < 256 ^ 15 := (minimalLength_le_iff m (by norm_num)).mp (Nat.le_of_lt_succ hshort)
    have hmod := Nat.mod_le m (2 ^ (8 * minimalLength m - 1))
    omega

/-- Where the legacy procedure makes the block's buffer. -/
theorem legacyBytes_eq_toList_iff {v : Int} (h : inRange v = true) :
    legacyBytes v = some (bufferOfPort (BitVec.ofInt 128 v)).toList ↔ 0 ≤ v ∨ v = -2 ^ 127 ∨ v = -2 ^ 126 := by
  have hlen := minimalLength_natAbs_le_of_inRange h
  have hrange := (inRange_iff v).mp h
  rcases lt_or_ge v 0 with hv | hv
  · rw [legacyBytes_of_neg hlen hv, Option.some.injEq,
      toList_bufferOfPort_eq_iff _ (length_legacyNegativeRun hlen), be_legacyNegativeRun hlen,
      toNat_ofInt_of_neg h hv, mod_top_eq_sub_iff (by omega)]
    omega
  · rw [legacyBytes_of_nonneg hlen hv, padTo16_minimalBytes_of_nonneg h hv]
    exact iff_of_true rfl (.inl hv)

end Sys2Proof.Machine

open Sys2Proof.Machine

/-- Settles O41: for a non-negative integer the buffer spells the magnitude, as its minimal run padded does; for a
negative one it is the complement of the magnitude less one. -/
theorem bufferFromMagnitude : Obligations.BufferFromMagnitude := by
  refine ⟨fun s hrange => ?buffer, fun m => ⟨be_minimalBytes m, ?minimal⟩, by decide⟩
  case minimal =>
    rintro l hl rfl
    exact length_minimalBytes_le hl
  case buffer =>
    have hin : inRange s.req.x = true := (inRange_iff _).mpr hrange
    refine ⟨_, exec_i2b_of_inRange hin, fun hv => ⟨?fits, ?padded⟩, fun hv => ⟨fun i hi => ?byte, ?notPred, ?notAddOne,
      fun hmin hhalf hlegacy => ?notLegacy⟩⟩
    case fits =>
      rw [length_minimalBytes]
      exact minimalLength_natAbs_le_of_inRange hin
    case padded => exact (padTo16_minimalBytes_of_nonneg hin hv).symm
    case byte =>
      have hpat : (BitVec.ofNat 128 (s.req.x.natAbs - 1)).toNat = s.req.x.natAbs - 1 := by
        rw [BitVec.toNat_ofNat]
        omega
      rw [ofInt_eq_not_of_neg 128 hv, toNat_getElem_bufferOfPort_not _ hi, getElem_bufferOfPort_eq_byteOf _ hi, hpat]
    case notPred => exact ofInt_eq_not_of_neg 128 hv
    case notAddOne => rw [← ofNat_zext, ofNat_zext_of_neg 128 hv]
    case notLegacy =>
      have hagree := (legacyBytes_eq_toList_iff hin).mp hlegacy
      omega

/-- Settles O55: the legacy run and the buffer have 16 bytes each, so they agree where they spell one integer. -/
theorem legacyEncoderAgreesExactly : Obligations.LegacyEncoderAgreesExactly := by
  refine ⟨fun s hrange => ?agree, fun v => ?overflow, fun s l hl hbi => ?hazard⟩
  case agree =>
    have hin : inRange s.req.x = true := (inRange_iff _).mpr hrange
    exact ⟨_, exec_i2b_of_inRange hin, legacyBytes_eq_toList_iff hin⟩
  case overflow =>
    rw [legacyBytes_eq_none_iff, minimalLength_le_iff _ (by norm_num), not_lt]
    norm_num
  case hazard =>
    obtain rfl : legacyNegativeRun 1 = l :=
      Option.some.inj ((legacyBytes_of_neg (v := -1) (by decide) (by norm_num)).symm.trans hl)
    refine (exec_b2i_eq_okInteger_iff s _).mpr ?_
    rw [hbi]
    decide

end
